-- ==== Sys2Proof/Word.lean ====
section
/-! DEFINITION. The word types: the 16-bit frame-buffer word and the 40-bit message word. -/

namespace Sys2Proof

/-- One frame-buffer word: 16 bits, bit offset b of weight 2^b (10_state R21, 20_memory R45). -/
abbrev Word := BitVec 16

/-- One message word M[39:0] (30_encoding R60). -/
abbrev MsgWord := BitVec 40

end Sys2Proof
end

