-- ==== Sys2Proof/Config.lean ====
section
/-! DEFINITION. What is fixed while the block runs (00_scope R7 to R15) and the free values.
The parameters' ranges are checked in WellFormed.lean. -/

namespace Sys2Proof

/-- The wire form of a word transfer (00_scope R14). -/
inductive Transport
  | bitbang
  | spi
deriving DecidableEq, Repr

/-- What MAP gives for a pixel: the word within a plane and the bit within that word (00_scope R10). -/
structure Loc where
  wi : Nat
  bo : Nat
deriving DecidableEq, Repr

/-- The four logical output lines; `oeEn = true` means the panel outputs are enabled (10_state R28). -/
structure Lines where
  data  : Bool
  clk   : Bool
  latch : Bool
  oeEn  : Bool
deriving DecidableEq, Repr, Inhabited

/-- One outcome of a transfer, drawn by the environment (44_transport R166, R167): the index of the
sub-operation that fails, if one does, and the levels found on the lines where the spec gives none.
An index past the last sub-operation fails none of them (DESIGN CHOICE, log 4). -/
structure Draw where
  failAt : Option Nat
  lines  : Lines
deriving DecidableEq, Repr, Inhabited

/-- The implementation parameters (00_scope R7 to R15). `map` is MAP as a table, pixel (x, y) at
y*W + x (log 13); row v of `grayLut` is GRAY_LUT[v]; `drainCap = none` is INF. -/
structure Config where
  w           : Nat
  h           : Nat
  planeLen    : Nat
  nplanes     : Nat
  map         : List Loc
  grayLut     : List Word
  qcap        : Nat
  drainCap    : Option Nat
  transport   : Transport
  oeActiveLow : Bool
  nprod       : Nat
deriving DecidableEq, Repr

/-- FREE VALUE: the n-th draw of a run for which the environment has put no draw in the state. It has
no body, so no proof can see whether the transfer fails or what the lines read (44_transport R166:
"with nothing to constrain the choice"; log 4). -/
opaque Config.freeDraw : Nat → Draw

end Sys2Proof
end

