-- ==== Sys2Proof/Machine/Defaults.lean ====
section
/-! DEFINITION. The tables the spec itself fixes (MAP_LINEAR, the gray table of R80), the configurations of
95_test_vectors section 0, and the reset levels of the lines. -/

namespace Sys2Proof.Machine

/-- `MAP_LINEAR(x, y) = ((y*W + x) div 16, (y*W + x) mod 16)` as a table (00_scope R10). -/
def mapLinear (w h : Nat) : List Loc := (List.range (w * h)).map (fun n => ⟨n / 16, n % 16⟩)

/-- `LUT[v][k]` = 1 if `(k*v) mod 16 < v` (40_framebuffer R80). -/
def lutBit (v k : Nat) : Bool := decide (k * v % 16 < v)

/-- `LUTROW[v]`: bit k is `LUT[v][k]` (40_framebuffer R80). -/
def lutRow (v : Nat) : Word :=
  BitVec.ofNat 16 ((List.range 16).foldl (fun acc k => acc + if lutBit v k then 2 ^ k else 0) 0)

/-- The 16 rows of 40_framebuffer R80. -/
def lutDefault : List Word := (List.range 16).map lutRow

/-- Configuration S of 95_test_vectors section 0. It gives no OE_ACTIVE_LOW: `false` is the model's choice (log 2). -/
def configS : Config where
  w := 4
  h := 4
  planeLen := 1
  nplanes := 16
  map := mapLinear 4 4
  grayLut := lutDefault
  qcap := 8
  drainCap := none
  transport := .bitbang
  oeActiveLow := false
  nprod := 2

/-- Configuration L of 95_test_vectors section 0, the source's 25 by 16 panel; what L does not give is as in S. -/
def configL : Config := { configS with w := 25, h := 16, planeLen := 25, map := mapLinear 25 16 }

/-- Configuration S1 of 95_test_vectors section 0: S with one resident plane. -/
def configS1 : Config := { configS with nplanes := 1 }

/-- The levels RESET and RESTART leave (10_state R28, R38, 70_reset_and_hazards R202): all low under BITBANG.
Under SPI the levels of data and clk are not specified, so they are the draw's (log 6). -/
def resetLines (t : Transport) (d : Draw) : Lines :=
  match t with
  | .bitbang => ⟨false, false, false, false⟩
  | .spi => ⟨d.lines.data, d.lines.clk, false, false⟩

end Sys2Proof.Machine
end

