-- ==== Sys2Proof/Syntax.lean ====
section
/-! DEFINITION. The messages: one constructor per row of spec/opcode_table.json (30_encoding R63 to R66).
Only the fields a kind reads are kept; the fields it ignores have no constructor argument (log 16). -/

namespace Sys2Proof

/-- A decoded message (30_encoding R66). Coordinates are 8-bit, gray and level 4-bit fields (R61, R62).
The reserved rows keep the tag, as R66's Reserved(M[3:0]) does. -/
inductive Instr
  | setPixel (x y : BitVec 8) (gray : BitVec 4)
  | fillPixels (x0 y0 x1 y1 : BitVec 8) (gray : BitVec 4)
  | clear
  | setBrightness (level : BitVec 4)
  | fullfill (level : BitVec 4)
  | reservedTag0
  | reservedTag6to7 (tag : BitVec 4)
  | reservedTag8toF (tag : BitVec 4)
deriving DecidableEq, Repr

end Sys2Proof
end

