-- ==== Sys2Proof/WellFormed.lean ====
section
/-! DEFINITION. Well-formedness of a message (its operands fit its row of the opcode table) and of a
configuration (00_scope R7 to R15, 70_reset_and_hazards R204). -/

namespace Sys2Proof

/-- A message fits its row: every field already has its width, so the only check left is that a reserved
row holds one of its own tags (30_encoding R65; the table's match and mask). -/
def Instr.wellFormed : Instr → Bool
  | .setPixel _ _ _ => true
  | .fillPixels _ _ _ _ _ => true
  | .clear => true
  | .setBrightness _ => true
  | .fullfill _ => true
  | .reservedTag0 => true
  | .reservedTag6to7 tag => decide (tag = 6#4 ∨ tag = 7#4)
  | .reservedTag8toF tag => decide (8#4 ≤ tag)

/-- The number of 1 bits (00_scope R17). -/
def popcount (v : Word) : Nat := (List.range 16).countP (fun b => v.getLsbD b)

namespace Config

/-- 00_scope R7. -/
abbrev PanelOk (c : Config) : Prop := 1 ≤ c.w ∧ c.w ≤ 255 ∧ 1 ≤ c.h ∧ c.h ≤ 255

/-- 00_scope R8: W*H/16 when that is exact, else its ceiling; in range; wide enough. -/
abbrev PlaneLenOk (c : Config) : Prop :=
  1 ≤ c.planeLen ∧ c.planeLen ≤ 4096 ∧ c.w * c.h ≤ 16 * c.planeLen ∧ c.planeLen = (c.w * c.h + 15) / 16

/-- 00_scope R9. -/
abbrev NplanesOk (c : Config) : Prop := 1 ≤ c.nplanes ∧ c.nplanes ≤ 16

/-- 00_scope R10: a location for every pixel of the panel, in range, no two pixels at one location. -/
abbrev MapOk (c : Config) : Prop :=
  c.map.length = c.w * c.h ∧ (∀ l ∈ c.map, l.wi < c.planeLen ∧ l.bo < 16) ∧ c.map.Nodup

/-- 00_scope R11, 40_framebuffer R81 (a): 16 rows, row v with exactly v ones (R81 (b) is not required, log 12). -/
abbrev GrayLutOk (c : Config) : Prop :=
  c.grayLut.length = 16 ∧ ∀ v < 16, popcount (c.grayLut.getD v 0#16) = v

/-- 00_scope R12. -/
abbrev QcapOk (c : Config) : Prop := 1 ≤ c.qcap ∧ c.qcap ≤ 65535

/-- 00_scope R13: a positive integer or INF. -/
abbrev DrainCapOk (c : Config) : Prop := ∀ n ∈ c.drainCap, 1 ≤ n

/-- 00_scope R15. -/
abbrev NprodOk (c : Config) : Prop := 1 ≤ c.nprod

/-- A configuration the block may run with (70_reset_and_hazards R204 (1)). -/
abbrev WellFormed (c : Config) : Prop :=
  c.PanelOk ∧ c.PlaneLenOk ∧ c.NplanesOk ∧ c.MapOk ∧ c.GrayLutOk ∧ c.QcapOk ∧ c.DrainCapOk ∧ c.NprodOk

end Config

end Sys2Proof
end

