-- ==== Sys2Proof/Machine/State.lean ====
section
/-! DEFINITION. The state of the block as plain data (10_state R20 to R38), the model's own fields beside it,
the reasons a step can stop, and the state after reset. -/

namespace Sys2Proof.Machine

/-- One listed frame-buffer word: its index and its value. -/
abbrev Cell := Nat × Word

/-- The frame buffer FB as the list of its words that are not 0x0000, by rising index. An unlisted word reads
0x0000, the reset contents (10_state R21). The unit is the 16-bit word: no byte of it has an address
(20_memory R40, R47; log 9). -/
abbrev Memory := List Cell

/-- The canonical form: indices strictly rising, no entry equal to what an unlisted word reads as. -/
abbrev Memory.wf (m : Memory) : Prop := m.Pairwise (fun a b => a.1 < b.1) ∧ ∀ e ∈ m, e.2 ≠ 0#16

/-- `seq.phase` (10_state R24). -/
inductive Phase
  | drain
  | refresh
  | yield
  | halted
deriving DecidableEq, Repr

/-- `seq.sub` (10_state R24). -/
inductive Sub
  | words
  | oeOff
  | oeOn
deriving DecidableEq, Repr

/-- The sequencer position `seq = (phase, k, i, sub, drained)`, the counterpart of a program counter (10_state R24). -/
structure Seq where
  phase   : Phase
  k       : Nat
  i       : Nat
  sub     : Sub
  drained : Nat
deriving DecidableEq, Repr

/-- `(DRAIN, 0, 0, WORDS, 0)` (10_state R24). -/
def Seq.start : Seq := ⟨.drain, 0, 0, .words, 0⟩

/-- The error kinds of 60_exceptions R180; `none` is code 0. No step raises `deviceError` or `bufferError`. -/
inductive ErrKind
  | none
  | pinError
  | busError
  | deviceError
  | bufferError
deriving DecidableEq, Repr

/-- One event of the transport trace (44_transport R160). -/
inductive TransportEvent
  | word (w : Word)
  | oeOff
  | oeOn
  | fail (e : ErrKind)
deriving DecidableEq, Repr

/-- The four output lines by name (10_state R28). -/
inductive Line
  | data
  | clk
  | latch
  | oeEn
deriving DecidableEq, Repr

/-- One wire sub-operation: a pin write, or one byte given to the serial engine (44_transport R161, R162, R164). -/
inductive WireOp
  | pin (l : Line) (level : Bool)
  | spiWrite (b : BitVec 8)
deriving DecidableEq, Repr

/-- One atomic step of one agent (00_scope R5, R6): a turn of the sequencer, a step of producer p
(43_queue R141, R142), or an action of the supervisor (60_exceptions R190). `reconfigure` is the change of
configuration that the spec forbids (70_reset_and_hazards R204). -/
inductive Action
  | sequencer
  | pushNb (p : Nat) (m : MsgWord)
  | pushBlk (p : Nat) (m : MsgWord)
  | pushDone (p : Nat)
  | statusRead (n : Nat)
  | reset
  | restart
  | resetAndRestart
  | reconfigure (c : Config)
deriving DecidableEq, Repr

/-- The state. The first group is the block's (10_state R21 to R29), then its configuration, which no step
changes (log 1), then the model's own fields: what the environment will do (`sched`, `draws`, `drawn`) and
what it has been given (`wire`, `reads`). -/
structure State where
  fb        : Memory
  q         : List MsgWord
  blk       : List (Option MsgWord)
  seq       : Seq
  err       : ErrKind
  drop      : Bool
  dropCount : BitVec 16
  badtag    : Bool
  lines     : Lines
  trace     : List TransportEvent
  cfg       : Config
  sched     : List Action
  draws     : List Draw
  drawn     : Nat
  wire      : List WireOp
  reads     : List (Nat × BitVec 16)
deriving DecidableEq, Repr

/-- Why the machine stops. -/
inductive Fault
  /-- Raised by a sequencer turn while phase = HALTED: no sequencer step is enabled and the agent is stuck
  until the supervisor acts (42_sequencer R127). Safe: the model takes no step where the block takes none. -/
  | sequencerHalted
deriving DecidableEq, Repr

/-- Why the model gives no step. -/
inductive Refusal
  /-- Raised only by an arm of exec without a meaning; there is none. Safe. -/
  | notModelled (mnemonic : String)
  /-- Raised by booting with a configuration that breaks 00_scope R7 to R15 (93_implementation_defined I3, I11). Safe. -/
  | badConfig
  /-- Raised by a change of configuration while running (93_implementation_defined U19). Safe. -/
  | configChange
  /-- Raised by a producer step at a port outside 1 .. NPROD: there is no such agent (00_scope R6, R15). Safe. -/
  | noSuchPort
  /-- Raised by a push at a port whose blocking push is still held: the step is not enabled (43_queue R141, R142). Safe. -/
  | portHeld
  /-- Raised by completing a blocking push at a port that holds none: the step is not enabled (43_queue R142). Safe. -/
  | nothingHeld
  /-- Raised by completing a blocking push while Q is full: the step is not enabled, the producer waits (43_queue R142). Safe. -/
  | queueFull
deriving DecidableEq, Repr

/-- What a step answers. -/
abbrev Result := Host.Outcome State Fault Refusal

/-- The state after the first RESET of a block with configuration `c` (10_state R38, 70_reset_and_hazards R204).
Under SPI the levels of data and clk come from the free value number 0. -/
def State.resetWith (c : Config) : State where
  fb := []
  q := []
  blk := List.replicate c.nprod none
  seq := Seq.start
  err := .none
  drop := false
  dropCount := 0#16
  badtag := false
  lines := resetLines c.transport (Config.freeDraw 0)
  trace := []
  cfg := c
  sched := []
  draws := []
  drawn := match c.transport with
    | .bitbang => 0
    | .spi => 1
  wire := []
  reads := []

/-- The machine right after reset, in configuration S (the choice of configuration is the model's, log 2). -/
def State.reset : State := State.resetWith configS

end Sys2Proof.Machine
end

