-- ==== Sys2Proof/Machine/Operands.lean ====
section
/-! DEFINITION. Operand assembly: from coordinates and plane numbers to frame-buffer indices and bits
(20_memory R41, R42, R59), the gray table, the loops of the pseudocode, and the producers' port numbers. -/

namespace Sys2Proof.Machine

/-- `FB_LEN = NPLANES * PLANE_LEN` (00_scope R9). -/
def fbLen (c : Config) : Nat := c.nplanes * c.planeLen

/-- `plane_offset(k) = k * PLANE_LEN` (40_framebuffer R83). -/
def planeOffset (c : Config) (k : Nat) : Nat := k * c.planeLen

/-- The pixel is on the panel: x < W and y < H (20_memory R42). -/
abbrev onPanel (c : Config) (x y : Nat) : Prop := x < c.w ∧ y < c.h

/-- `MAP(x, y)` (00_scope R10). It is never asked off the panel (40_framebuffer R84); the table of a
well-formed configuration has an entry for every pixel on it (log 13). -/
def mapAt (c : Config) (x y : Nat) : Loc := c.map.getD (y * c.w + x) ⟨0, 0⟩

/-- The FB index of the word that holds pixel (x, y) in plane k (20_memory R42, R59). -/
def pixelAddr (c : Config) (x y k : Nat) : Nat := planeOffset c k + (mapAt c x y).wi

/-- `LUT[v][k]` of the configured gray table (00_scope R11). -/
def lut (c : Config) (v k : Nat) : Bool := (c.grayLut.getD v 0#16).getLsbD k

/-- `for k in a..b` (00_scope R17): k = a, a+1, …, b-1, and no run when b <= a. -/
def forRange (a b : Nat) (body : Nat → Memory → Memory) (m : Memory) : Memory :=
  (List.range' a (b - a)).foldl (fun acc k => body k acc) m

/-- The slot of producer port p, 1 <= p <= NPROD (10_state R23); no port has another number. -/
def portSlot (s : State) (p : Nat) : Option (Option MsgWord) :=
  if p = 0 then none else s.blk[p - 1]?

/-- `blk[p] <- v` (10_state R23). -/
def setPort (s : State) (p : Nat) (v : Option MsgWord) : State := { s with blk := s.blk.set (p - 1) v }

end Sys2Proof.Machine
end

