-- ==== Sys2Proof/Machine/Ops.lean ====
section
/-! DEFINITION. The shared operations: words of the frame buffer, the draw of the environment, the halt
(the block's one exception, 60_exceptions R183) and the two ways out of it (60_exceptions R184). -/

namespace Sys2Proof.Machine

/-- `FB[j]`, `MemRead(j, 1)` (00_scope R17). -/
def readWord : Memory → Nat → Word
  | [], _ => 0#16
  | (a, v) :: rest, j => if a = j then v else readWord rest j

/-- `FB[j] <- v`, `MemWrite(j, 1, v)` (00_scope R17), keeping the canonical form. -/
def writeWord : Memory → Nat → Word → Memory
  | [], j, v => if v = 0#16 then [] else [(j, v)]
  | (a, w) :: rest, j, v =>
    if j < a then
      if v = 0#16 then (a, w) :: rest else (j, v) :: (a, w) :: rest
    else if j = a then
      if v = 0#16 then rest else (a, v) :: rest
    else (a, w) :: writeWord rest j v

/-- Write `v` to every word of indices a, …, b-1, in that order. -/
def fillWords (a b : Nat) (v : Word) (m : Memory) : Memory := forRange a b (fun j acc => writeWord acc j v) m

/-- Take the environment's next draw: the first of `draws`, or the free value where none is given (log 4). -/
def takeDraw (s : State) : Draw × State :=
  match s.draws with
  | [] => (Config.freeDraw s.drawn, { s with drawn := s.drawn + 1 })
  | d :: rest => (d, { s with draws := rest })

/-- `raise Halt(e)` (60_exceptions R183): ERR and the phase change; k, i and sub keep their values. -/
def raiseHalt (e : ErrKind) (s : State) : State :=
  { s with err := e, seq := { s.seq with phase := .halted } }

/-- The lines at their reset levels (10_state R28, log 6). -/
def resetLevels (s : State) : State :=
  match s.cfg.transport with
  | .bitbang => { s with lines := resetLines .bitbang default }
  | .spi => { (takeDraw s).2 with lines := resetLines .spi (takeDraw s).1 }

/-- RESTART (70_reset_and_hazards R202), the return from a halt that keeps Q, the held pushes and the diagnostics. -/
def restartBlock (s : State) : State :=
  { resetLevels s with seq := Seq.start, err := .none, fb := [] }

/-- RESET (70_reset_and_hazards R200, 10_state R38): everything but the trace. -/
def resetBlock (s : State) : State :=
  { resetLevels s with
    fb := []
    q := []
    blk := List.replicate s.cfg.nprod none
    seq := Seq.start
    err := .none
    drop := false
    dropCount := 0#16
    badtag := false }

end Sys2Proof.Machine
end

