-- ==== Sys2Proof/Machine/Flags.lean ====
section
/-! DEFINITION. The flags BADTAG, DROP and DROPCOUNT, the error codes, and the four read-only status registers
(10_state R25 to R34, 60_exceptions R180). -/

namespace Sys2Proof.Machine

/-- `code(e)` (60_exceptions R180). -/
def ErrKind.code : ErrKind → BitVec 3
  | .none => 0#3
  | .pinError => 1#3
  | .busError => 2#3
  | .deviceError => 3#3
  | .bufferError => 4#3

/-- The code of the phase in STATUS (10_state R30). -/
def Phase.code : Phase → BitVec 2
  | .drain => 0#2
  | .refresh => 1#2
  | .yield => 2#2
  | .halted => 3#2

/-- The code of the flush step in STATUS (10_state R30). -/
def Sub.code : Sub → BitVec 2
  | .words => 0#2
  | .oeOff => 1#2
  | .oeOn => 2#2

/-- `BADTAG <- 1` (41_messages R106). -/
def setBadtag (s : State) : State := { s with badtag := true }

/-- Record a dropped push: DROP set, DROPCOUNT counted up to 0xFFFF (10_state R26, 43_queue R141). -/
def recordDrop (s : State) : State :=
  { s with
    drop := true
    dropCount := if s.dropCount = 0xFFFF#16 then s.dropCount else s.dropCount + 1#16 }

/-- STATUS.HALTED and the output `halted`: 1 exactly when phase = HALTED (10_state R30, 60_exceptions R186). -/
def haltedOut (s : State) : Bool := decide (s.seq.phase = .halted)

/-- SR0 STATUS (10_state R30). -/
def statusWord (s : State) : BitVec 16 :=
  (0#6 ++ s.seq.sub.code ++ s.seq.phase.code ++ BitVec.ofBool s.drop ++ BitVec.ofBool s.badtag
    ++ s.err.code ++ BitVec.ofBool (haltedOut s) : BitVec (6 + 2 + 2 + 1 + 1 + 3 + 1))

/-- SR1 QCOUNT (10_state R31). -/
def qcountWord (s : State) : BitVec 16 := BitVec.ofNat 16 s.q.length

/-- SR3 SEQPOS `= {i[11:0], k[3:0]}` (10_state R33). -/
def seqposWord (s : State) : BitVec 16 :=
  (BitVec.ofNat 12 s.seq.i ++ BitVec.ofNat 4 s.seq.k : BitVec (12 + 4))

/-- The value of a status read: registers 0 to 3, any other number reads 0 (10_state R30 to R34). -/
def statusReg (s : State) (n : Nat) : BitVec 16 :=
  match n with
  | 0 => statusWord s
  | 1 => qcountWord s
  | 2 => s.dropCount
  | 3 => seqposWord s
  | _ => 0#16

/-- The level of the output-enable pin: oe_en under the polarity OE_ACTIVE_LOW (00_scope R14, 44_transport R164). -/
def oePin (s : State) : Bool := s.lines.oeEn != s.cfg.oeActiveLow

end Sys2Proof.Machine
end

