-- ==== Sys2Proof/Machine/Queue.lean ====
section
/-! DEFINITION. The producer ports (43_queue R140 to R142). A step that is not enabled is refused by name (log 7). -/

namespace Sys2Proof.Machine

/-- `Q.append(m)`. -/
def enqueue (m : MsgWord) (s : State) : State := { s with q := s.q ++ [m] }

/-- `push_nb(p, M)` (43_queue R141): appended, or dropped and recorded when Q is full. -/
def pushNb (p : Nat) (m : MsgWord) (s : State) : Result :=
  match portSlot s p with
  | none => .refused .noSuchPort
  | some (some _) => .refused .portHeld
  | some none => .next (if s.q.length < s.cfg.qcap then enqueue m s else recordDrop s)

/-- `push_blk(p, M)`: the issue of a blocking push (43_queue R142). -/
def pushBlk (p : Nat) (m : MsgWord) (s : State) : Result :=
  match portSlot s p with
  | none => .refused .noSuchPort
  | some (some _) => .refused .portHeld
  | some none => .next (setPort s p (some m))

/-- `push_done(p)`: the completion of a blocking push (43_queue R142). -/
def pushDone (p : Nat) (s : State) : Result :=
  match portSlot s p with
  | none => .refused .noSuchPort
  | some none => .refused .nothingHeld
  | some (some m) =>
    if s.q.length < s.cfg.qcap then .next (setPort (enqueue m s) p none) else .refused .queueFull

end Sys2Proof.Machine
end

