-- ==== Sys2Proof/Decode.lean ====
section
/-! DEFINITION. The decoder of the 40-bit message word, total on every word (30_encoding R61 to R66), and
after it the encoder, which writes the canonical encoding (R63, R67). -/

namespace Sys2Proof

/-- M[3:0] (30_encoding R61). -/
def tagOf (m : MsgWord) : BitVec 4 := m.extractLsb' 0 4

/-- M[7:4]. -/
def valOf (m : MsgWord) : BitVec 4 := m.extractLsb' 4 4

/-- M[15:8]. -/
def x0Of (m : MsgWord) : BitVec 8 := m.extractLsb' 8 8

/-- M[23:16]. -/
def y0Of (m : MsgWord) : BitVec 8 := m.extractLsb' 16 8

/-- M[31:24]. -/
def x1Of (m : MsgWord) : BitVec 8 := m.extractLsb' 24 8

/-- M[39:32]. -/
def y1Of (m : MsgWord) : BitVec 8 := m.extractLsb' 32 8

/-- `decode(M)` (30_encoding R66): selected by the tag alone, every word decodes. -/
def decode (m : MsgWord) : Instr :=
  if tagOf m = 1#4 then .setPixel (x0Of m) (y0Of m) (valOf m)
  else if tagOf m = 2#4 then .fillPixels (x0Of m) (y0Of m) (x1Of m) (y1Of m) (valOf m)
  else if tagOf m = 3#4 then .clear
  else if tagOf m = 4#4 then .setBrightness (valOf m)
  else if tagOf m = 5#4 then .fullfill (valOf m)
  else if tagOf m = 0#4 then .reservedTag0
  else if tagOf m < 8#4 then .reservedTag6to7 (tagOf m)
  else .reservedTag8toF (tagOf m)

/-- Why a number is not read as a message. -/
inductive DecodeError
  /-- The number needs more than 40 bits: it "is not a message word at all" (95_test_vectors V-ENC4). -/
  | widerThan40Bits
deriving DecidableEq, Repr

/-- A number read as a message word: rejected by name when it is wider than 40 bits, decoded otherwise. -/
def decodeNat (w : Nat) : Except DecodeError Instr :=
  if w < 2 ^ 40 then .ok (decode (BitVec.ofNat 40 w)) else .error .widerThan40Bits

/-- The tag of a message (30_encoding R64, R65). -/
def Instr.tag : Instr → BitVec 4
  | .setPixel _ _ _ => 1#4
  | .fillPixels _ _ _ _ _ => 2#4
  | .clear => 3#4
  | .setBrightness _ => 4#4
  | .fullfill _ => 5#4
  | .reservedTag0 => 0#4
  | .reservedTag6to7 tag => tag
  | .reservedTag8toF tag => tag

/-- `M = {Y1, X1, Y0, X0, VAL, TAG}` (30_encoding R61). -/
def packMessage (y1 x1 y0 x0 : BitVec 8) (val tag : BitVec 4) : MsgWord :=
  (y1 ++ x1 ++ y0 ++ x0 ++ val ++ tag : BitVec (8 + 8 + 8 + 8 + 4 + 4))

/-- The canonical encoding: 0 in every field the kind ignores (30_encoding R63). -/
def encode : Instr → MsgWord
  | .setPixel x y gray => packMessage 0 0 y x gray 1#4
  | .fillPixels x0 y0 x1 y1 gray => packMessage y1 x1 y0 x0 gray 2#4
  | .clear => packMessage 0 0 0 0 0 3#4
  | .setBrightness level => packMessage 0 0 0 0 level 4#4
  | .fullfill level => packMessage 0 0 0 0 level 5#4
  | .reservedTag0 => packMessage 0 0 0 0 0 0#4
  | .reservedTag6to7 tag => packMessage 0 0 0 0 0 tag
  | .reservedTag8toF tag => packMessage 0 0 0 0 0 tag

/-- The instruction of an opcode-table row's bits: bit 0 is the least significant bit of the one 40-bit
word; a message word has no byte order (20_memory R47), so the bits are the word. Bits at and above
`nbits` are 0; a value wider than a message word decodes to nothing. -/
def decodeTableWord (nbits w : Nat) : Option Instr :=
  (decodeNat (w % 2 ^ nbits)).toOption

end Sys2Proof
end

