-- ==== Sys2Proof/Machine/FrameBuffer.lean ====
section
/-! DEFINITION. The frame buffer's internal operations (40_framebuffer R84 to R88), on a configuration and a
frame buffer. -/

namespace Sys2Proof.Machine

/-- Bit `bo` of `w` replaced: `(w AND NOT (1 << bo)) OR (bit << bo)`, 16 bits (40_framebuffer R84). -/
def putBit (w : Word) (bo : Nat) (bit : Bool) : Word :=
  (w &&& ~~~(1#16 <<< bo)) ||| ((if bit then 1#16 else 0#16) <<< bo)

/-- `set_pixel(x, y, bit, off)` (40_framebuffer R84): silent off the panel and past FB_LEN. -/
def setPixel (c : Config) (x y : Nat) (bit : Bool) (off : Nat) (m : Memory) : Memory :=
  if x < c.w ∧ y < c.h then
    if off + (mapAt c x y).wi < fbLen c then
      writeWord m (off + (mapAt c x y).wi)
        (putBit (readWord m (off + (mapAt c x y).wi)) (mapAt c x y).bo bit)
    else m
  else m

/-- `set_pixel_gray(x, y, v)` (40_framebuffer R85). -/
def setPixelGray (c : Config) (x y v : Nat) (m : Memory) : Memory :=
  if x < c.w ∧ y < c.h then
    forRange 0 16 (fun k acc => setPixel c x y (lut c v k) (planeOffset c k) acc) m
  else m

/-- `clear()` (40_framebuffer R86). -/
def clearAll (c : Config) (m : Memory) : Memory := fillWords 0 (fbLen c) 0x0000#16 m

/-- `plane_fill(k, bit)` (40_framebuffer R87). -/
def planeFill (c : Config) (k : Nat) (bit : Bool) (m : Memory) : Memory :=
  fillWords (planeOffset c k) (planeOffset c k + c.planeLen) (if bit then 0xFFFF#16 else 0x0000#16) m

/-- Pixel (x, y)'s bit in plane k (20_memory R42). -/
def pixelBit (c : Config) (m : Memory) (x y k : Nat) : Bool :=
  (readWord m (pixelAddr c x y k)).getLsbD (mapAt c x y).bo

/-- `pixel_gray(x, y)` (40_framebuffer R88): the resident planes in which the pixel is on, at most 15. -/
def pixelGray (c : Config) (m : Memory) (x y : Nat) : Nat :=
  min ((List.range c.nplanes).countP (fun k => pixelBit c m x y k)) 15

end Sys2Proof.Machine
end

