-- ==== Sys2Proof/Machine/Messages.lean ====
section
/-! DEFINITION. The meaning of every message (41_messages R100 to R106): one definition each. Applying a message
writes FB and BADTAG only (R105); the pop of the word stands in the sequencer's step (42_sequencer R121). -/

namespace Sys2Proof.Machine

/-- `SetPixel(x, y, gray)` (41_messages R100). -/
def execSetPixel (x y : BitVec 8) (gray : BitVec 4) (s : State) : Result :=
  .next { s with fb := setPixelGray s.cfg x.toNat y.toNat gray.toNat s.fb }

/-- `FillPixels(x0, y0, x1, y1, gray)` on half-open bounds (41_messages R101). -/
def execFillPixels (x0 y0 x1 y1 : BitVec 8) (gray : BitVec 4) (s : State) : Result :=
  .next { s with
    fb := forRange y0.toNat y1.toNat
      (fun y acc => forRange x0.toNat x1.toNat (fun x acc' => setPixelGray s.cfg x y gray.toNat acc') acc) s.fb }

/-- `Clear` (41_messages R102). -/
def execClear (s : State) : Result := .next { s with fb := clearAll s.cfg s.fb }

/-- One pixel of SetBrightness: its gray g becomes (g*level) div 15 (41_messages R103). -/
def dimPixel (c : Config) (level x y : Nat) (m : Memory) : Memory :=
  setPixelGray c x y (pixelGray c m x y * level / 15) m

/-- `SetBrightness(level)` (41_messages R103). -/
def execSetBrightness (level : BitVec 4) (s : State) : Result :=
  .next { s with
    fb := forRange 0 s.cfg.h
      (fun y acc => forRange 0 s.cfg.w (fun x acc' => dimPixel s.cfg level.toNat x y acc') acc) s.fb }

/-- `Fullfill(level)` (41_messages R104). -/
def execFullfill (level : BitVec 4) (s : State) : Result :=
  .next { s with
    fb := forRange 0 s.cfg.nplanes (fun k acc => planeFill s.cfg k (lut s.cfg level.toNat k) acc) s.fb }

/-- Reserved tag 0 (41_messages R106). -/
def execReservedTag0 (s : State) : Result := .next (setBadtag s)

/-- Reserved tags 6 and 7 (41_messages R106). -/
def execReservedTag6to7 (s : State) : Result := .next (setBadtag s)

/-- Reserved tags 8 to 15 (41_messages R106). -/
def execReservedTag8toF (s : State) : Result := .next (setBadtag s)

end Sys2Proof.Machine
end

