-- ==== Sys2Proof/Machine/Dispatch.lean ====
section
/-! DEFINITION. `apply(M)` on the decoded message (41_messages R105): one arm per constructor of Instr. -/

namespace Sys2Proof.Machine

def exec (i : Instr) (s : State) : Host.Outcome State Fault Refusal :=
  match i with
  | .setPixel x y gray => Sys2Proof.Machine.execSetPixel x y gray s
  | .fillPixels x0 y0 x1 y1 gray => Sys2Proof.Machine.execFillPixels x0 y0 x1 y1 gray s
  | .clear => Sys2Proof.Machine.execClear s
  | .setBrightness level => Sys2Proof.Machine.execSetBrightness level s
  | .fullfill level => Sys2Proof.Machine.execFullfill level s
  | .reservedTag0 => Sys2Proof.Machine.execReservedTag0 s
  | .reservedTag6to7 _ => Sys2Proof.Machine.execReservedTag6to7 s
  | .reservedTag8toF _ => Sys2Proof.Machine.execReservedTag8toF s

end Sys2Proof.Machine
end

