-- ==== Sys2Proof/Machine/Transport.lean ====
section
/-! DEFINITION. The transport controller (44_transport R160 to R167): the wire sub-operations of each operation in
both forms, and `Xfer(op)`, whose outcome is a draw. -/

namespace Sys2Proof.Machine

/-- The three transport operations (44_transport R160). -/
inductive TransportOp
  | word (w : Word)
  | oeOff
  | oeOn
deriving DecidableEq, Repr

/-- The event of an operation that returned ok (44_transport R160). -/
def TransportOp.event : TransportOp → TransportEvent
  | .word w => .word w
  | .oeOff => .oeOff
  | .oeOn => .oeOn

/-- The latch pulse: high, then low (44_transport R163). -/
def latchPulse : List WireOp := [.pin .latch true, .pin .latch false]

/-- One bit of a word under BITBANG: the data line, then one clock pulse (44_transport R161). -/
def bitbangBit (b : Bool) : List WireOp := [.pin .data b, .pin .clk true, .pin .clk false]

/-- The bits of a word in wire order, bit 15 first (20_memory R46). -/
def wordBits (w : Word) : List Bool := (List.range 16).map (fun n => w.getLsbD (15 - n))

/-- `Word(w)` with TRANSPORT = BITBANG (44_transport R161). -/
def bitbangWord (w : Word) : List WireOp := (wordBits w).flatMap bitbangBit ++ latchPulse

/-- `Word(w)` with TRANSPORT = SPI: high byte, low byte, latch pulse (44_transport R162). -/
def spiWord (w : Word) : List WireOp :=
  [.spiWrite (w.extractLsb' 8 8), .spiWrite (w.extractLsb' 0 8)] ++ latchPulse

/-- The wire sub-operations of an operation, in order (44_transport R161, R162, R164). -/
def subOps (t : Transport) : TransportOp → List WireOp
  | .word w =>
    match t with
    | .bitbang => bitbangWord w
    | .spi => spiWord w
  | .oeOff => [.pin .oeEn false]
  | .oeOn => [.pin .oeEn true]

/-- The kind reported when a sub-operation fails (44_transport R166). -/
def WireOp.errKind : WireOp → ErrKind
  | .pin _ _ => .pinError
  | .spiWrite _ => .busError

/-- The lines after one sub-operation; the serial engine's own levels are not specified (10_state R28). -/
def Lines.after (l : Lines) : WireOp → Lines
  | .pin .data v => { l with data := v }
  | .pin .clk v => { l with clk := v }
  | .pin .latch v => { l with latch := v }
  | .pin .oeEn v => { l with oeEn := v }
  | .spiWrite _ => l

/-- The lines after an operation that returned ok. Under SPI the levels of data and clk between transfers are not specified
(10_state R28), so after every operation they are the draw's (log 6). -/
def linesAfter (t : Transport) (op : TransportOp) (d : Draw) (l : Lines) : Lines :=
  match t with
  | .bitbang => (subOps .bitbang op).foldl Lines.after l
  | .spi => { (subOps .spi op).foldl Lines.after l with data := d.lines.data, clk := d.lines.clk }

/-- The kind of error a draw gives for an operation, or none when no sub-operation fails (44_transport R166). -/
def failureOf (t : Transport) (op : TransportOp) (d : Draw) : Option ErrKind :=
  d.failAt.bind (fun n => (subOps t op)[n]?.map WireOp.errKind)

/-- What a transfer with draw `d` leaves: the event in T (44_transport R160); the sub-operations before the failed
one on the wire and none after it (R167); after a failure the levels the draw gives, which nothing constrains.
R167 leaves open whether the failed sub-operation itself changed its line: `lines` is free then (log 5), and the
record `wire` leaves the failed sub-operation out whether it did or not (DESIGN CHOICE, log 10). -/
def transferred (op : TransportOp) (d : Draw) (s : State) : State :=
  match failureOf s.cfg.transport op d with
  | none =>
    { s with
      trace := s.trace ++ [op.event]
      wire := s.wire ++ subOps s.cfg.transport op
      lines := linesAfter s.cfg.transport op d s.lines }
  | some e =>
    { s with
      trace := s.trace ++ [.fail e]
      wire := s.wire ++ (subOps s.cfg.transport op).take (d.failAt.getD 0)
      lines := d.lines }

/-- `Xfer(op)` (44_transport R160, R166): `none` for ok, `some e` for err(e), and the state it leaves. -/
def xfer (op : TransportOp) (s : State) : Option ErrKind × State :=
  (failureOf s.cfg.transport op (takeDraw s).1, transferred op (takeDraw s).1 (takeDraw s).2)

/-- The bits put on the data line with a clock pulse, in order: under BITBANG the data line at each clk <- 1, under SPI the byte's
bits, most significant first (44_transport R161, R162, R165). `d` and `c` are the levels of data and clk before. The spec names
no edge at which the chain samples: counting a bit at the rising edge is the model's (DESIGN CHOICE, log 23); a whole word gives
the same bits at either edge. -/
def wireBits (d c : Bool) : List WireOp → List Bool
  | [] => []
  | .pin .data v :: rest => wireBits v c rest
  | .pin .clk v :: rest => if v && !c then d :: wireBits d v rest else wireBits d v rest
  | .pin .latch _ :: rest => wireBits d c rest
  | .pin .oeEn _ :: rest => wireBits d c rest
  | .spiWrite b :: rest => (List.range 8).map (fun n => b.getLsbD (7 - n)) ++ wireBits d c rest

end Sys2Proof.Machine
end

