-- ==== Sys2Proof/Machine/Sequencer.lean ====
section
/-! DEFINITION. The refresh sequencer (42_sequencer R120 to R127): one definition per kind of step. -/

namespace Sys2Proof.Machine

/-- The drain cap is reached: DRAIN_CAP is finite and `drained` is at it (42_sequencer R122; above it, which no
run reaches, counts as reached, log 11). -/
def capReached (s : State) : Bool :=
  match s.cfg.drainCap with
  | none => false
  | some n => decide (n ≤ s.seq.drained)

/-- `if DRAIN_CAP != INF: drained <- drained + 1` (42_sequencer R121). -/
def countDrained (s : State) : State :=
  match s.cfg.drainCap with
  | none => s
  | some _ => { s with seq := { s.seq with drained := s.seq.drained + 1 } }

/-- DRAIN with the message `m` at the head of Q (42_sequencer R121): drop it from Q, apply it, count it. -/
def drainStep (m : MsgWord) (rest : List MsgWord) (s : State) : Result :=
  match exec (decode m) { s with q := rest } with
  | .next t => .next (countDrained t)
  | .fault r => .fault r
  | .refused r => .refused r

/-- DRAIN with no message, or the cap reached: start a refresh pass (42_sequencer R122). -/
def startPass (s : State) : State := { s with seq := ⟨.refresh, 0, 0, .words, 0⟩ }

/-- A REFRESH step: one transfer, then the next position, or the halt on a failure (42_sequencer R123 to R125). -/
def transferStep (op : TransportOp) (pos : Seq) (s : State) : State :=
  match xfer op s with
  | (none, t) => { t with seq := pos }
  | (some e, t) => raiseHalt e t

/-- Where a word transfer leads: the next word of the plane, or OE_OFF (42_sequencer R123). -/
def posAfterWord (c : Config) (p : Seq) : Seq :=
  if p.i + 1 < c.planeLen then { p with i := p.i + 1 } else { p with i := 0, sub := .oeOff }

/-- Where OeOff leads (42_sequencer R124). -/
def posAfterOeOff (p : Seq) : Seq := { p with sub := .oeOn }

/-- Where OeOn leads: the next plane, or YIELD after the last resident one (42_sequencer R125). -/
def posAfterOeOn (c : Config) (p : Seq) : Seq :=
  if p.k + 1 < c.nplanes then { p with k := p.k + 1, i := 0, sub := .words } else ⟨.yield, 0, 0, .words, 0⟩

/-- REFRESH, word transfer (42_sequencer R123). -/
def wordStep (s : State) : State :=
  transferStep (.word (readWord s.fb (planeOffset s.cfg s.seq.k + s.seq.i))) (posAfterWord s.cfg s.seq) s

/-- REFRESH, output disable (42_sequencer R124). -/
def oeOffStep (s : State) : State := transferStep .oeOff (posAfterOeOff s.seq) s

/-- REFRESH, output enable (42_sequencer R125). -/
def oeOnStep (s : State) : State := transferStep .oeOn (posAfterOeOn s.cfg s.seq) s

/-- YIELD (42_sequencer R126). -/
def yieldStep (s : State) : State := { s with seq := Seq.start }

/-- The REFRESH step of the current sub-step (42_sequencer R120). -/
def refreshStep (s : State) : State :=
  match s.seq.sub with
  | .words => wordStep s
  | .oeOff => oeOffStep s
  | .oeOn => oeOnStep s

/-- The DRAIN step: a message of Q is applied unless the cap is reached; otherwise a pass starts (42_sequencer R121, R122). -/
def drainPhaseStep (s : State) : Result :=
  match s.q with
  | [] => .next (startPass s)
  | m :: rest => if capReached s then .next (startPass s) else drainStep m rest s

/-- One turn of the sequencer (42_sequencer R120): the one step its position enables; none in HALTED (R127). -/
def sequencerStep (s : State) : Result :=
  match s.seq.phase with
  | .drain => drainPhaseStep s
  | .refresh => .next (refreshStep s)
  | .yield => .next (yieldStep s)
  | .halted => .fault .sequencerHalted

end Sys2Proof.Machine
end

