-- ==== Sys2Proof/Machine/Agents.lean ====
section
/-! DEFINITION. The supervisor's actions, the boot, and one atomic step of any agent (00_scope R5, R6). -/

namespace Sys2Proof.Machine

/-- A status read (10_state R34): the supervisor gets the value, the block's state does not change.
`reads` is the model's record of the values given (log 10). -/
def statusRead (n : Nat) (s : State) : State := { s with reads := s.reads ++ [(n, statusReg s n)] }

/-- RESET and RESTART asserted before the same step: RESET takes effect (70_reset_and_hazards R203). -/
def resetAndRestart (s : State) : State := resetBlock s

/-- Boot (70_reset_and_hazards R204): a configuration that meets 00_scope R7 to R15, then RESET. A configuration that
does not is refused (93_implementation_defined I3, I11; log 14). -/
def boot (c : Config) : Result :=
  if c.WellFormed then .next (State.resetWith c) else .refused .badConfig

/-- One atomic step of one agent. A change of configuration is refused (70_reset_and_hazards R204). -/
def agentStep (a : Action) (s : State) : Result :=
  match a with
  | .sequencer => sequencerStep s
  | .pushNb p m => pushNb p m s
  | .pushBlk p m => pushBlk p m s
  | .pushDone p => pushDone p s
  | .statusRead n => .next (statusRead n s)
  | .reset => .next (resetBlock s)
  | .restart => .next (restartBlock s)
  | .resetAndRestart => .next (resetAndRestart s)
  | .reconfigure _ => .refused .configChange

/-- The agent step the state says comes next: the first of the schedule, or a turn of the sequencer where the
schedule is empty (log 3). -/
def chosenAction (s : State) : Action :=
  match s.sched with
  | [] => .sequencer
  | a :: _ => a

/-- The state with the chosen step taken off the schedule. -/
def popSched (s : State) : State := { s with sched := s.sched.tail }

end Sys2Proof.Machine
end

