-- ==== Sys2Proof/Machine/Step.lean ====
section
/-! DEFINITION. One step of the machine, and where it takes its next message from. -/

namespace Sys2Proof.Machine

/-- One step: the agent step the schedule puts first, or a turn of the sequencer (00_scope R5, log 3). -/
def step (s : State) : Host.Outcome State Fault Refusal := agentStep (chosenAction s) (popSched s)

/-- `s` with the message word of an opcode-table row where the next step takes it: at the head of Q, in place of the
word that stands there, with the sequencer in DRAIN below its cap and its turn next (log 15). -/
def State.withFetchWord (s : State) (nbits w : Nat) : State :=
  { s with
    q := BitVec.ofNat 40 (w % 2 ^ nbits) :: s.q.tail
    seq := Seq.start
    sched := match s.sched with
      | [] => []
      | a :: rest => .sequencer :: a :: rest }

end Sys2Proof.Machine
end

