-- ==== Sys2Proof/Machine/Assembler.lean ====
section
/-! DEFINITION. The assembler of message lines and its pseudo-instructions (30_encoding R67, R68). It is the
producers' tool, not the block; text is a list of characters. -/

namespace Sys2Proof.Machine

/-- One line of a message program, its operands not yet checked (30_encoding R67, R68). -/
inductive AsmLine
  | setPixel (x y gray : Nat)
  | fillPixels (x0 y0 x1 y1 gray : Nat)
  | clear
  | setBrightness (level : Nat)
  | fullfill (level : Nat)
  | fillRect (x y w h gray : Nat)
  | fillAll (level : Nat)
  | setGray (x y gray : Nat)
deriving DecidableEq, Repr

/-- An operand of an 8-bit field, refused and not reduced when it does not fit (30_encoding R67). -/
def coordinate (n : Nat) : Option (BitVec 8) := if n ≤ 255 then some (BitVec.ofNat 8 n) else none

/-- An operand of a 4-bit field, refused and not reduced when it does not fit (30_encoding R67). -/
def grayLevel (n : Nat) : Option (BitVec 4) := if n ≤ 15 then some (BitVec.ofNat 4 n) else none

/-- `SetPixel(x,y,gray)`. -/
def asmSetPixel (x y gray : Nat) : Option Instr :=
  match coordinate x, coordinate y, grayLevel gray with
  | some x, some y, some g => some (.setPixel x y g)
  | _, _, _ => none

/-- `FillPixels(x0,y0,x1,y1,gray)`. -/
def asmFillPixels (x0 y0 x1 y1 gray : Nat) : Option Instr :=
  match coordinate x0, coordinate y0, coordinate x1, coordinate y1, grayLevel gray with
  | some x0, some y0, some x1, some y1, some g => some (.fillPixels x0 y0 x1 y1 g)
  | _, _, _, _, _ => none

/-- The message of a line, or none where an operand does not fit (30_encoding R67). A pseudo-instruction is expanded
first (R68); FillRect's own operands are 0..255. -/
def AsmLine.toInstr : AsmLine → Option Instr
  | .setPixel x y gray => asmSetPixel x y gray
  | .fillPixels x0 y0 x1 y1 gray => asmFillPixels x0 y0 x1 y1 gray
  | .clear => some .clear
  | .setBrightness level => (grayLevel level).map Instr.setBrightness
  | .fullfill level => (grayLevel level).map Instr.fullfill
  | .fillRect x y w h gray =>
    if w ≤ 255 ∧ h ≤ 255 then asmFillPixels x y (min (x + w) 255) (min (y + h) 255) gray else none
  | .fillAll level => (grayLevel level).map Instr.fullfill
  | .setGray x y gray => asmSetPixel x y gray

/-- The canonical message word of a line (30_encoding R63, R67). -/
def assembleLine (l : AsmLine) : Option MsgWord := l.toInstr.map encode

/-- All values, or none if one is missing. -/
def allSome {α : Type} : List (Option α) → Option (List α)
  | [] => some []
  | none :: _ => none
  | some a :: rest => (allSome rest).map (fun l => a :: l)

/-- The words of a program, one line each (30_encoding R67). R67 speaks of a refused operand and not of the other lines:
one refused line refuses the whole program (DESIGN CHOICE, log 24). -/
def assembleProgram (p : List AsmLine) : Option (List MsgWord) := allSome (p.map assembleLine)

/-- The words of a program pushed in order by producer p (30_encoding R67). R67 names no push discipline: this one is
non-blocking, as in 95_test_vectors part 3 (DESIGN CHOICE, log 25). -/
def pushProgram (p : Nat) (ms : List MsgWord) : List Action := ms.map (fun m => Action.pushNb p m)

/-- The same by blocking pushes, each completed before the next is issued, as in 95_test_vectors P6 (log 25). -/
def pushProgramBlocking (p : Nat) (ms : List MsgWord) : List Action :=
  ms.flatMap (fun m => [Action.pushBlk p m, Action.pushDone p])

/-- The value of a digit: decimal, or hexadecimal in either case (log 17). -/
def digitVal (ch : Char) : Option Nat :=
  if 48 ≤ ch.toNat ∧ ch.toNat ≤ 57 then some (ch.toNat - 48)
  else if 97 ≤ ch.toNat ∧ ch.toNat ≤ 102 then some (ch.toNat - 87)
  else if 65 ≤ ch.toNat ∧ ch.toNat ≤ 70 then some (ch.toNat - 55)
  else none

/-- The value of digits in a base, from the value read so far. -/
def digitsVal (base : Nat) (acc : Nat) : List Char → Option Nat
  | [] => some acc
  | ch :: rest =>
    match digitVal ch with
    | some d => if d < base then digitsVal base (acc * base + d) rest else none
    | none => none

/-- An operand: 0x-prefixed hexadecimal, or decimal (30_encoding R67). -/
def parseOperand : List Char → Option Nat
  | [] => none
  | '0' :: 'x' :: d :: rest => digitsVal 16 0 (d :: rest)
  | cs => digitsVal 10 0 cs

/-- The parts of a text between the separators `sep`. -/
def splitText (sep : Char) : List Char → List (List Char)
  | [] => [[]]
  | ch :: rest =>
    if ch = sep then [] :: splitText sep rest
    else
      match splitText sep rest with
      | [] => [[ch]]
      | part :: parts => (ch :: part) :: parts

/-- The operands between the parentheses: the text after the opening one must end with the closing one. -/
def parseOperands (body : List Char) : Option (List Nat) :=
  if body.getLast? = some ')' then allSome ((splitText ',' body.dropLast).map parseOperand) else none

/-- A line with operands, by its name (30_encoding R67, R68). -/
def lineOf (name : List Char) (ops : List Nat) : Option AsmLine :=
  match ops with
  | [a] =>
    if name = "SetBrightness".toList then some (.setBrightness a)
    else if name = "Fullfill".toList then some (.fullfill a)
    else if name = "FillAll".toList then some (.fillAll a)
    else none
  | [a, b, c] =>
    if name = "SetPixel".toList then some (.setPixel a b c)
    else if name = "SetGray".toList then some (.setGray a b c)
    else none
  | [a, b, c, d, e] =>
    if name = "FillPixels".toList then some (.fillPixels a b c d e)
    else if name = "FillRect".toList then some (.fillRect a b c d e)
    else none
  | _ => none

/-- A line of text: `Clear`, or a name and its operands in parentheses, without blanks (30_encoding R67; log 17). -/
def parseLine (text : List Char) : Option AsmLine :=
  match text.dropWhile (fun ch => ch != '(') with
  | [] => if text = "Clear".toList then some .clear else none
  | _ :: body =>
    match parseOperands body with
    | some ops => lineOf (text.takeWhile (fun ch => ch != '(')) ops
    | none => none

end Sys2Proof.Machine
end

