-- ==== Sys2Proof/Machine/Runs.lean ====
section
/-! DEFINITION. Infinite runs and the weak fairness of the sequencer (42_sequencer R132, 92_eei_decisions D39). -/

namespace Sys2Proof.Machine

/-- An infinite run: in state number n some agent takes the step `act n`, which leads to state number n + 1. The agents are in
any interleaving, and every step taken is enabled (00_scope R5). -/
def IsRun (st : Nat → State) (act : Nat → Action) : Prop := ∀ n, agentStep (act n) (st n) = .next (st (n + 1))

/-- Weak fairness of the sequencer (42_sequencer R132): from every point of the run on, the sequencer takes a step, or it is
found halted. No fairness is assumed of the producers or the supervisor (93_implementation_defined U5; log 18). -/
def WeaklyFair (st : Nat → State) (act : Nat → Action) : Prop :=
  ∀ n, ∃ m, n ≤ m ∧ (act m = .sequencer ∨ (st m).seq.phase = .halted)

/-- The first n steps of a run, as a schedule. -/
def scheduleOf (act : Nat → Action) (n : Nat) : List Action := (List.range n).map act

end Sys2Proof.Machine
end

