-- ==== Sys2Proof/Safety.lean ====
section
/-! DEFINITION. The terms claims are stated in: the invariant of the state, the pixel invariant, enabled steps, reachable
states, and the events of a refresh pass. -/

namespace Sys2Proof.Machine

/-- Every listed word of a frame buffer exists: its index is below `n`. -/
abbrev Memory.within (m : Memory) (n : Nat) : Prop := ∀ e ∈ m, e.1 < n

/-- `drained` is in its range (10_state R24): kept only when DRAIN_CAP is finite, and then at most DRAIN_CAP. -/
def drainedInRange (c : Config) (p : Seq) : Prop :=
  match c.drainCap with
  | none => p.drained = 0
  | some n => p.drained ≤ n

/-- A legal sequencer position (10_state R24, 42_sequencer R134). -/
structure Seq.Legal (c : Config) (p : Seq) : Prop where
  plane    : p.k < c.nplanes
  word     : p.i < c.planeLen
  strobe   : p.sub ≠ .words → p.i = 0
  atRest   : p.phase = .drain ∨ p.phase = .yield → p.k = 0 ∧ p.i = 0 ∧ p.sub = .words
  drained0 : p.phase ≠ .drain → p.drained = 0
  drained  : drainedInRange c p

/-- ERR is set exactly while the sequencer is halted, by a kind this block raises (10_state R25, 60_exceptions R180, R181). -/
structure ErrLegal (s : State) : Prop where
  halted : s.err = .none ↔ s.seq.phase ≠ .halted
  kind   : s.err = .none ∨ s.err = .pinError ∨ s.err = .busError
  bus    : s.err = .busError → s.cfg.transport = .spi

/-- Between transfers, outside HALTED, the latch line is low, and so is the clock line under BITBANG, where the sequencer
drives it (44_transport R161 to R163). During a pass the panel is disabled only between OeOff and OeOn: every plane after
the first is shifted with the outputs enabled (70_reset_and_hazards R215). -/
structure LinesLegal (s : State) : Prop where
  latch    : s.seq.phase ≠ .halted → s.lines.latch = false
  clk      : s.seq.phase ≠ .halted → s.cfg.transport = .bitbang → s.lines.clk = false
  disabled : s.seq.phase = .refresh → s.seq.sub = .oeOn → s.lines.oeEn = false
  enabled  : s.seq.phase = .refresh → s.seq.sub ≠ .oeOn → 1 ≤ s.seq.k → s.lines.oeEn = true

/-- The invariant of the state: a legal configuration, the canonical frame buffer of FB_LEN words, Q within its
capacity (43_queue R148), one slot per port, a legal position, a legal ERR,
legal line levels, and DROP set exactly when a drop is counted (10_state R26). -/
structure State.Inv (s : State) : Prop where
  cfgOk    : s.cfg.WellFormed
  fbWf     : s.fb.wf
  fbWithin : s.fb.within (fbLen s.cfg)
  queue    : s.q.length ≤ s.cfg.qcap
  ports    : s.blk.length = s.cfg.nprod
  position : s.seq.Legal s.cfg
  errOk    : ErrLegal s
  linesOk  : LinesLegal s
  dropOk   : s.drop = true ↔ s.dropCount ≠ 0#16

/-- Pixel (x, y) holds gray v: its bit in every resident plane is the table's (40_framebuffer R92). -/
def PixelHolds (c : Config) (m : Memory) (x y v : Nat) : Prop :=
  ∀ k, k < c.nplanes → pixelBit c m x y k = lut c v k

/-- Every pixel of the panel holds some gray 0..15 (40_framebuffer R92). -/
def PixelInv (s : State) : Prop :=
  ∀ x y, onPanel s.cfg x y → ∃ v, v < 16 ∧ PixelHolds s.cfg s.fb x y v

/-- Bit `b` of word `j` is one no pixel of the panel maps to (20_memory R44). -/
def Unmapped (c : Config) (j b : Nat) : Prop :=
  ∀ x y, onPanel c x y → mapAt c x y ≠ ⟨j % c.planeLen, b⟩

/-- The agent step is enabled (42_sequencer R120, R127; 43_queue R141, R142; 60_exceptions R190). -/
def Enabled (a : Action) (s : State) : Prop :=
  match a with
  | .sequencer => s.seq.phase ≠ .halted
  | .pushNb p _ => portSlot s p = some none
  | .pushBlk p _ => portSlot s p = some none
  | .pushDone p => (∃ m, portSlot s p = some (some m)) ∧ s.q.length < s.cfg.qcap
  | .statusRead _ => True
  | .reset => True
  | .restart => True
  | .resetAndRestart => True
  | .reconfigure _ => False

/-- The step is one of a producer (43_queue R140). -/
def isProducer : Action → Bool
  | .sequencer => false
  | .pushNb _ _ => true
  | .pushBlk _ _ => true
  | .pushDone _ => true
  | .statusRead _ => false
  | .reset => false
  | .restart => false
  | .resetAndRestart => false
  | .reconfigure _ => false

/-- The port of a producer's step (43_queue R140). -/
def actionPort : Action → Option Nat
  | .sequencer => none
  | .pushNb p _ => some p
  | .pushBlk p _ => some p
  | .pushDone p => some p
  | .statusRead _ => none
  | .reset => none
  | .restart => none
  | .resetAndRestart => none
  | .reconfigure _ => none

/-- The step is RESET or RESTART (60_exceptions R184). -/
def isResetOrRestart : Action → Bool
  | .sequencer => false
  | .pushNb _ _ => false
  | .pushBlk _ _ => false
  | .pushDone _ => false
  | .statusRead _ => false
  | .reset => true
  | .restart => true
  | .resetAndRestart => true
  | .reconfigure _ => false

/-- A state some run reaches: from the state a boot leaves, whatever the environment does (00_scope R5). -/
inductive Reachable : State → Prop
  | boot (c : Config) (sched : List Action) (draws : List Draw) (h : c.WellFormed) :
      Reachable { State.resetWith c with sched := sched, draws := draws }
  | step (s t : State) (hs : Reachable s) (h : step s = .next t) : Reachable t

/-- The fields of a message word that its kind reads, the tag included (30_encoding R63); a reserved kind reads its tag. -/
def readMask (tag : BitVec 4) : MsgWord :=
  if tag = 1#4 then 0x0000FFFFFF#40
  else if tag = 2#4 then 0xFFFFFFFFFF#40
  else if tag = 4#4 ∨ tag = 5#4 then 0x00000000FF#40
  else 0x000000000F#40

/-- The transfer that is due in a REFRESH step (42_sequencer R123 to R125). -/
def dueOp (s : State) : TransportOp :=
  match s.seq.sub with
  | .words => .word (readWord s.fb (planeOffset s.cfg s.seq.k + s.seq.i))
  | .oeOff => .oeOff
  | .oeOn => .oeOn

/-- The events of the flush of plane k without a failure (40_framebuffer R89). -/
def planeEvents (c : Config) (m : Memory) (k : Nat) : List TransportEvent :=
  (List.range c.planeLen).map (fun i => TransportEvent.word (readWord m (planeOffset c k + i)))
    ++ [.oeOff, .oeOn]

/-- The events of one refresh pass without a failure (42_sequencer R128). -/
def passEvents (c : Config) (m : Memory) : List TransportEvent :=
  (List.range c.nplanes).flatMap (planeEvents c m)

/-- The number of steps of one refresh pass without a failure, the step that starts it included (42_sequencer R128). -/
def passSteps (c : Config) : Nat := 1 + c.nplanes * (c.planeLen + 2)

/-- The draw lets every sub-operation succeed. -/
abbrev drawOk (d : Draw) : Prop := d.failAt = none

/-- What a REFRESH step of the sequencer may change: its position, ERR, the trace, the lines, and the model's record of the
wire and its supply of draws (42_sequencer R123 to R125, 60_exceptions R183). -/
def TransferFrame (s t : State) : Prop :=
  t = { s with
    seq := t.seq
    err := t.err
    trace := t.trace
    lines := t.lines
    wire := t.wire
    draws := t.draws
    drawn := t.drawn }

/-- Nothing is queued, held or being shown: the observation point (b) of 42_sequencer R133. -/
def Quiescent (s : State) : Prop :=
  s.seq.phase = .drain ∧ s.q = [] ∧ ∀ b ∈ s.blk, b = none

end Sys2Proof.Machine
end

