-- ==== Sys2Proof/Certificates/Slice0/Obligations.lean ====
section
/-! DEFINITION. The statements for the provers. Where a statement names `sched`, `draws`, `wire` or `reads` it speaks of the
model's own fields (log 3, log 4, log 10); where it names `takeDraw` it holds for every draw the environment may give. A frame
that keeps `lines` whole over a step without a transfer keeps data and clk under SPI by the model's choice (log 6). -/

open Sys2Proof Sys2Proof.Machine

/-! ### Encoding -/

/-- 30_encoding section 4, all thirteen rows: each example word decodes to the message beside it, which is encoded as that word.
The last two decodings are V-ENC5 and V-ENC6 of 95_test_vectors. -/
def Obligations.ExampleWordsDecodeAndEncode : Prop :=
  decode 0x0000000181#40 = .setPixel 1#8 0#8 8#4 ∧ encode (.setPixel 1#8 0#8 8#4) = 0x0000000181#40 ∧
  decode 0x00000002F1#40 = .setPixel 2#8 0#8 15#4 ∧ encode (.setPixel 2#8 0#8 15#4) = 0x00000002F1#40 ∧
  decode 0x0000030281#40 = .setPixel 2#8 3#8 8#4 ∧ encode (.setPixel 2#8 3#8 8#4) = 0x0000030281#40 ∧
  decode 0x00000000F1#40 = .setPixel 0#8 0#8 15#4 ∧ encode (.setPixel 0#8 0#8 15#4) = 0x00000000F1#40 ∧
  decode 0x00000303A1#40 = .setPixel 3#8 3#8 10#4 ∧ encode (.setPixel 3#8 3#8 10#4) = 0x00000303A1#40 ∧
  decode 0x0000050591#40 = .setPixel 5#8 5#8 9#4 ∧ encode (.setPixel 5#8 5#8 9#4) = 0x0000050591#40 ∧
  decode 0x0202000002#40 = .fillPixels 0#8 0#8 2#8 2#8 0#4 ∧ encode (.fillPixels 0#8 0#8 2#8 2#8 0#4) = 0x0202000002#40 ∧
  decode 0x0403010172#40 = .fillPixels 1#8 1#8 3#8 4#8 7#4 ∧ encode (.fillPixels 1#8 1#8 3#8 4#8 7#4) = 0x0403010172#40 ∧
  decode 0x0000000003#40 = .clear ∧ encode .clear = 0x0000000003#40 ∧
  decode 0x0000000084#40 = .setBrightness 8#4 ∧ encode (.setBrightness 8#4) = 0x0000000084#40 ∧
  decode 0x0000000045#40 = .fullfill 4#4 ∧ encode (.fullfill 4#4) = 0x0000000045#40 ∧
  decode 0x00000000F5#40 = .fullfill 15#4 ∧ encode (.fullfill 15#4) = 0x00000000F5#40 ∧
  decode 0x0000000007#40 = .reservedTag6to7 7#4 ∧ encode (.reservedTag6to7 7#4) = 0x0000000007#40 ∧
  decode 0x0000000000#40 = .reservedTag0 ∧ decode 0xFFFFFFFFFF#40 = .reservedTag8toF 15#4

/-- 30_encoding section 2, by arithmetic on the word: every word decodes, by its low four bits alone, and each operand is the
field the format gives it. -/
def Obligations.DecoderIsTotalAndReadsTheFields : Prop :=
  ∀ m : MsgWord,
    (m.toNat % 16 = 1 → decode m =
      .setPixel (BitVec.ofNat 8 (m.toNat / 2 ^ 8)) (BitVec.ofNat 8 (m.toNat / 2 ^ 16)) (BitVec.ofNat 4 (m.toNat / 2 ^ 4))) ∧
    (m.toNat % 16 = 2 → decode m =
      .fillPixels (BitVec.ofNat 8 (m.toNat / 2 ^ 8)) (BitVec.ofNat 8 (m.toNat / 2 ^ 16))
        (BitVec.ofNat 8 (m.toNat / 2 ^ 24)) (BitVec.ofNat 8 (m.toNat / 2 ^ 32)) (BitVec.ofNat 4 (m.toNat / 2 ^ 4))) ∧
    (m.toNat % 16 = 3 → decode m = .clear) ∧
    (m.toNat % 16 = 4 → decode m = .setBrightness (BitVec.ofNat 4 (m.toNat / 2 ^ 4))) ∧
    (m.toNat % 16 = 5 → decode m = .fullfill (BitVec.ofNat 4 (m.toNat / 2 ^ 4))) ∧
    (m.toNat % 16 = 0 → decode m = .reservedTag0) ∧
    (m.toNat % 16 = 6 ∨ m.toNat % 16 = 7 → decode m = .reservedTag6to7 (BitVec.ofNat 4 m.toNat)) ∧
    (8 ≤ m.toNat % 16 → decode m = .reservedTag8toF (BitVec.ofNat 4 m.toNat))

/-- 30_encoding section 2: no operand bit of any well-formed message is dropped by its encoding. -/
def Obligations.DecodeOfEncodeIsTheMessage : Prop :=
  ∀ i : Instr, i.wellFormed = true → decode (encode i) = i

/-- 30_encoding R63: an ignored field may hold any value, the kind is selected by the tag alone, and the canonical encoding
holds 0 in every ignored field. -/
def Obligations.IgnoredFieldsHaveNoEffect : Prop :=
  ∀ m : MsgWord,
    decode (m &&& readMask (tagOf m)) = decode m ∧
    (decode m).tag = tagOf m ∧
    encode (decode m) = m &&& readMask (tagOf m)

/-- 30_encoding section 3: the pseudo-instructions stand for their expansions, and FillRect(0,0,W,H,g) covers the panel. That FillRect
with w or h above 255 is refused is the model's choice (log 17). -/
def Obligations.PseudoInstructionsExpand : Prop :=
  (∀ x y w h g : Nat, w ≤ 255 → h ≤ 255 →
    assembleLine (.fillRect x y w h g) = assembleLine (.fillPixels x y (min (x + w) 255) (min (y + h) 255) g)) ∧
  (∀ x y w h g : Nat, 255 < w ∨ 255 < h → assembleLine (.fillRect x y w h g) = none) ∧
  (∀ level : Nat, assembleLine (.fillAll level) = assembleLine (.fullfill level)) ∧
  (∀ x y g : Nat, assembleLine (.setGray x y g) = assembleLine (.setPixel x y g)) ∧
  (∀ (c : Config) (g : Nat), c.WellFormed → g ≤ 15 →
    assembleLine (.fillRect 0 0 c.w c.h g) =
      some (encode (.fillPixels 0#8 0#8 (BitVec.ofNat 8 c.w) (BitVec.ofNat 8 c.h) (BitVec.ofNat 4 g))))

/-- 30_encoding section 3: a line is assembled to its canonical word exactly when every operand fits its field; an operand that
does not fit is refused, not reduced. -/
def Obligations.AssemblerRefusesOperandsThatDoNotFit : Prop :=
  (∀ x y g : Nat, assembleLine (.setPixel x y g) =
    if x ≤ 255 ∧ y ≤ 255 ∧ g ≤ 15 then
      some (encode (.setPixel (BitVec.ofNat 8 x) (BitVec.ofNat 8 y) (BitVec.ofNat 4 g))) else none) ∧
  (∀ x0 y0 x1 y1 g : Nat, assembleLine (.fillPixels x0 y0 x1 y1 g) =
    if x0 ≤ 255 ∧ y0 ≤ 255 ∧ x1 ≤ 255 ∧ y1 ≤ 255 ∧ g ≤ 15 then
      some (encode (.fillPixels (BitVec.ofNat 8 x0) (BitVec.ofNat 8 y0) (BitVec.ofNat 8 x1) (BitVec.ofNat 8 y1)
        (BitVec.ofNat 4 g))) else none) ∧
  assembleLine .clear = some (encode .clear) ∧
  (∀ level : Nat, assembleLine (.setBrightness level) =
    if level ≤ 15 then some (encode (.setBrightness (BitVec.ofNat 4 level))) else none) ∧
  (∀ level : Nat, assembleLine (.fullfill level) =
    if level ≤ 15 then some (encode (.fullfill (BitVec.ofNat 4 level))) else none)

/-! ### The gray table -/

/-- 40_framebuffer R80 (and R81, which it says the table meets): the formula of the table, its sixteen rows, the number of ones of
row v, and in every window of positions the window's share of v, rounded down or up. -/
def Obligations.GrayTableRowsCountsAndSpread : Prop :=
  (∀ v < 16, ∀ k < 16, (lutRow v).getLsbD k = decide (k * v % 16 < v)) ∧
  lutDefault = [0x0000#16, 0x0001#16, 0x0101#16, 0x0841#16, 0x1111#16, 0x2491#16, 0x4949#16, 0x54A9#16,
    0x5555#16, 0xAB55#16, 0xB5B5#16, 0xDB6D#16, 0xDDDD#16, 0xF7BD#16, 0xFDFD#16, 0xFFFD#16] ∧
  (∀ v < 16, lutDefault.getD v 0#16 = lutRow v ∧ popcount (lutRow v) = v) ∧
  ∀ v < 16, ∀ a ≤ 16, ∀ b ≤ 16, a ≤ b →
    ((List.range' a (b - a)).countP (fun k => (lutRow v).getLsbD k) = (b - a) * v / 16 ∨
     (List.range' a (b - a)).countP (fun k => (lutRow v).getLsbD k) = ((b - a) * v + 15) / 16)

/-! ### Messages -/

/-- 41_messages R100: SetPixel completes on every state; on the panel the pixel holds the gray in every resident plane and no
other bit changes; off the panel nothing changes. Nothing but FB changes. -/
def Obligations.SetPixelWritesItsGrayInEveryPlane : Prop :=
  (∀ m : MsgWord, tagOf m = 1#4 →
    decode m = .setPixel (m.extractLsb' 8 8) (m.extractLsb' 16 8) (m.extractLsb' 4 4)) ∧
  ∀ (s : State) (x y : BitVec 8) (gray : BitVec 4), s.Inv →
    ∃ t, exec (.setPixel x y gray) s = .next t ∧ t = { s with fb := t.fb } ∧
      t.fb.wf ∧ t.fb.within (fbLen s.cfg) ∧
      (¬ onPanel s.cfg x.toNat y.toNat → t = s) ∧
      (onPanel s.cfg x.toNat y.toNat →
        (∀ k, k < s.cfg.nplanes → pixelBit s.cfg t.fb x.toNat y.toNat k = lut s.cfg gray.toNat k) ∧
        ∀ j b, (∀ k, k < s.cfg.nplanes →
            ¬ (j = pixelAddr s.cfg x.toNat y.toNat k ∧ b = (mapAt s.cfg x.toNat y.toNat).bo)) →
          (readWord t.fb j).getLsbD b = (readWord s.fb j).getLsbD b)

/-- 41_messages R101: FillPixels completes on every state; every pixel of the half-open rectangle that is on the panel holds the
gray in every resident plane, every other pixel and every unmapped bit keeps its value; an empty or inverted rectangle
changes nothing. Nothing but FB changes. -/
def Obligations.FillPixelsPaintsTheHalfOpenRectangle : Prop :=
  (∀ m : MsgWord, tagOf m = 2#4 →
    decode m = .fillPixels (m.extractLsb' 8 8) (m.extractLsb' 16 8) (m.extractLsb' 24 8) (m.extractLsb' 32 8)
      (m.extractLsb' 4 4)) ∧
  ∀ (s : State) (x0 y0 x1 y1 : BitVec 8) (gray : BitVec 4), s.Inv →
    ∃ t, exec (.fillPixels x0 y0 x1 y1 gray) s = .next t ∧ t = { s with fb := t.fb } ∧
      t.fb.wf ∧ t.fb.within (fbLen s.cfg) ∧
      (x1 ≤ x0 ∨ y1 ≤ y0 → t = s) ∧
      (∀ x y k, onPanel s.cfg x y → k < s.cfg.nplanes →
        pixelBit s.cfg t.fb x y k =
          if x0.toNat ≤ x ∧ x < x1.toNat ∧ y0.toNat ≤ y ∧ y < y1.toNat then lut s.cfg gray.toNat k
          else pixelBit s.cfg s.fb x y k) ∧
      ∀ j b, fbLen s.cfg ≤ j ∨ Unmapped s.cfg j b →
        (readWord t.fb j).getLsbD b = (readWord s.fb j).getLsbD b

/-- 41_messages R102, 40_framebuffer R86: Clear completes on every state and leaves every word 0x0000, unmapped bits included.
Nothing but FB changes. -/
def Obligations.ClearZeroesEveryWord : Prop :=
  (∀ m : MsgWord, tagOf m = 3#4 → decode m = .clear) ∧
  ∀ s : State, s.Inv →
    exec .clear s = .next { s with fb := [] } ∧ (∀ j, readWord [] j = 0x0000#16)

/-- 41_messages R103: SetBrightness completes on every state; every pixel of gray g, read as its number of planes on and at most
15, holds (g*level) div 15 in every resident plane; unmapped bits keep their value. Nothing but FB changes. -/
def Obligations.SetBrightnessRescalesEveryPixel : Prop :=
  (∀ m : MsgWord, tagOf m = 4#4 → decode m = .setBrightness (m.extractLsb' 4 4)) ∧
  ∀ (s : State) (level : BitVec 4), s.Inv →
    ∃ t, exec (.setBrightness level) s = .next t ∧ t = { s with fb := t.fb } ∧
      t.fb.wf ∧ t.fb.within (fbLen s.cfg) ∧
      (∀ x y, onPanel s.cfg x y →
        pixelGray s.cfg s.fb x y * level.toNat / 15 ≤ 15 ∧
        ∀ k, k < s.cfg.nplanes →
          pixelBit s.cfg t.fb x y k = lut s.cfg (pixelGray s.cfg s.fb x y * level.toNat / 15) k) ∧
      ∀ j b, fbLen s.cfg ≤ j ∨ Unmapped s.cfg j b →
        (readWord t.fb j).getLsbD b = (readWord s.fb j).getLsbD b

/-- 41_messages R104, 40_framebuffer R87: Fullfill completes on every state; every word of resident plane k becomes 0xFFFF where
LUT[level][k] is 1 and 0x0000 where it is 0; Fullfill(0) gives the frame buffer of Clear. Nothing but FB changes. -/
def Obligations.FullfillFillsEveryPlaneByWords : Prop :=
  (∀ m : MsgWord, tagOf m = 5#4 → decode m = .fullfill (m.extractLsb' 4 4)) ∧
  ∀ (s : State) (level : BitVec 4), s.Inv →
    ∃ t, exec (.fullfill level) s = .next t ∧ t = { s with fb := t.fb } ∧
      t.fb.wf ∧ t.fb.within (fbLen s.cfg) ∧
      (∀ k i, k < s.cfg.nplanes → i < s.cfg.planeLen →
        readWord t.fb (planeOffset s.cfg k + i) = if lut s.cfg level.toNat k then 0xFFFF#16 else 0x0000#16) ∧
      (level = 0#4 → t.fb = []) ∧
      (s.cfg.grayLut = lutDefault → level = 15#4 → ∀ i, i < s.cfg.planeLen →
        readWord t.fb (planeOffset s.cfg 1 + i) = 0x0000#16)

/-- 41_messages R106: a word with a reserved tag completes, sets BADTAG and changes nothing else; popped by the sequencer it
counts as a drained message. -/
def Obligations.ReservedTagsOnlySetBadtag : Prop :=
  (∀ s : State, exec .reservedTag0 s = .next { s with badtag := true }) ∧
  (∀ (s : State) (tag : BitVec 4), exec (.reservedTag6to7 tag) s = .next { s with badtag := true }) ∧
  (∀ (s : State) (tag : BitVec 4), exec (.reservedTag8toF tag) s = .next { s with badtag := true }) ∧
  ∀ (m : MsgWord) (s : State) (rest : List MsgWord), tagOf m = 0#4 ∨ 6#4 ≤ tagOf m →
    exec (decode m) s = .next { s with badtag := true } ∧
    (s.seq.phase = .drain → s.q = m :: rest → (∀ n, s.cfg.drainCap = some n → s.seq.drained < n) →
      agentStep .sequencer s = .next { s with
        q := rest
        badtag := true
        seq := { s.seq with drained := if s.cfg.drainCap = none then s.seq.drained else s.seq.drained + 1 } })

/-- 41_messages sections 2 and 3: every message completes on every state, changes at most FB and BADTAG, and not both. -/
def Obligations.EveryMessageCompletesAndTouchesOnlyFbOrBadtag : Prop :=
  ∀ (i : Instr) (s : State), ∃ t, exec i s = .next t ∧
    (t = { s with fb := t.fb } ∨ t = { s with badtag := true })

/-- 20_memory R43: a pixel off the panel and a plane that is not resident are silent no-ops of the frame buffer's operations. -/
def Obligations.OutOfRangeWritesDoNothing : Prop :=
  ∀ (c : Config) (m : Memory) (x y : Nat),
    (c.w ≤ x ∨ c.h ≤ y →
      (∀ bit off, setPixel c x y bit off m = m) ∧ ∀ v, setPixelGray c x y v m = m) ∧
    (∀ bit off, fbLen c ≤ off + (mapAt c x y).wi → setPixel c x y bit off m = m) ∧
    (∀ bit k, c.nplanes ≤ k → setPixel c x y bit (planeOffset c k) m = m)

/-- 40_framebuffer sections 4 and 6: with all sixteen planes resident, a pixel just set reads back its gray, and its sixteen bits
are the table's row. -/
def Obligations.SetPixelReadsBack : Prop :=
  ∀ (s : State) (x y : BitVec 8) (gray : BitVec 4), s.Inv → s.cfg.nplanes = 16 → onPanel s.cfg x.toNat y.toNat →
    ∃ t, exec (.setPixel x y gray) s = .next t ∧
      pixelGray t.cfg t.fb x.toNat y.toNat = gray.toNat ∧
      (List.range 16).map (fun k => pixelBit t.cfg t.fb x.toNat y.toNat k) =
        (List.range 16).map (fun k => (t.cfg.grayLut.getD gray.toNat 0#16).getLsbD k)

/-- 41_messages section 1: SetBrightness(15) changes nothing when every pixel holds a gray and all sixteen planes are resident. -/
def Obligations.FullBrightnessChangesNothing : Prop :=
  ∀ s : State, s.Inv → PixelInv s → s.cfg.nplanes = 16 → exec (.setBrightness 15#4) s = .next s

/-! ### The sequencer -/

/-- 42_sequencer R121: in DRAIN, with a message in Q and the cap not reached, the sequencer drops the head of Q, applies it, and
counts it where DRAIN_CAP is finite; the phase stays DRAIN. -/
def Obligations.DrainAppliesTheHeadOfTheQueue : Prop :=
  ∀ (s : State) (m : MsgWord) (rest : List MsgWord), s.seq.phase = .drain → s.q = m :: rest →
    (∀ n, s.cfg.drainCap = some n → s.seq.drained < n) →
    ∃ t, exec (decode m) { s with q := rest } = .next t ∧
      agentStep .sequencer s = .next { t with
        seq := { t.seq with drained := if s.cfg.drainCap = none then t.seq.drained else t.seq.drained + 1 } } ∧
      t.q = rest ∧ t.seq = s.seq

/-- 42_sequencer R122: in DRAIN, with Q empty or the cap reached, the sequencer starts a refresh pass and changes nothing else. -/
def Obligations.PassStartsOnEmptyQueueOrReachedCap : Prop :=
  ∀ s : State, s.seq.phase = .drain → (s.q = [] ∨ s.cfg.drainCap = some s.seq.drained) →
    agentStep .sequencer s = .next { s with seq := ⟨.refresh, 0, 0, .words, 0⟩ }

/-- 42_sequencer R123: the word transfer of a pass. After it the lines are as 44_transport section 1 drives them: oe_en is kept, the
latch pulse is over, and under BITBANG data holds bit 0 of the word and clk is low (under SPI these two are not specified). -/
def Obligations.WordStepTransfersAndMovesOn : Prop :=
  ∀ s : State, s.seq.phase = .refresh → s.seq.sub = .words →
    ∃ t, agentStep .sequencer s = .next t ∧
      TransferFrame s t ∧
      (failureOf s.cfg.transport (.word (readWord s.fb (planeOffset s.cfg s.seq.k + s.seq.i))) (takeDraw s).1 = none →
        t.trace = s.trace ++ [.word (readWord s.fb (planeOffset s.cfg s.seq.k + s.seq.i))] ∧ t.err = s.err ∧
        t.seq = (if s.seq.i + 1 < s.cfg.planeLen then { s.seq with i := s.seq.i + 1 }
                 else { s.seq with i := 0, sub := .oeOff }) ∧
        t.lines.oeEn = s.lines.oeEn ∧ t.lines.latch = false ∧
        (s.cfg.transport = .bitbang →
          t.lines.data = (readWord s.fb (planeOffset s.cfg s.seq.k + s.seq.i)).getLsbD 0 ∧ t.lines.clk = false)) ∧
      ∀ e, failureOf s.cfg.transport (.word (readWord s.fb (planeOffset s.cfg s.seq.k + s.seq.i))) (takeDraw s).1 = some e →
        t.trace = s.trace ++ [.fail e] ∧ t.err = e ∧ t.seq = { s.seq with phase := .halted }

/-- 42_sequencer R124: the output-disable step of a pass. Under SPI the levels of data and clk after it are not specified. -/
def Obligations.OeOffStepDisablesTheOutputs : Prop :=
  ∀ s : State, s.seq.phase = .refresh → s.seq.sub = .oeOff →
    ∃ t, agentStep .sequencer s = .next t ∧
      TransferFrame s t ∧
      (failureOf s.cfg.transport .oeOff (takeDraw s).1 = none →
        t.trace = s.trace ++ [.oeOff] ∧ t.err = s.err ∧ t.seq = { s.seq with sub := .oeOn } ∧
        t.lines.oeEn = false ∧ t.lines.latch = s.lines.latch ∧
        (s.cfg.transport = .bitbang → t.lines.data = s.lines.data ∧ t.lines.clk = s.lines.clk)) ∧
      ∀ e, failureOf s.cfg.transport .oeOff (takeDraw s).1 = some e →
        t.trace = s.trace ++ [.fail e] ∧ t.err = e ∧ t.seq = { s.seq with phase := .halted }

/-- 42_sequencer R125: the output-enable step, which ends a plane and, after the last resident plane, the pass.
Under SPI the levels of data and clk after it are not specified. -/
def Obligations.OeOnStepEndsThePlane : Prop :=
  ∀ s : State, s.seq.phase = .refresh → s.seq.sub = .oeOn →
    ∃ t, agentStep .sequencer s = .next t ∧
      TransferFrame s t ∧
      (failureOf s.cfg.transport .oeOn (takeDraw s).1 = none →
        t.trace = s.trace ++ [.oeOn] ∧ t.err = s.err ∧ t.lines.oeEn = true ∧ t.lines.latch = s.lines.latch ∧
        (s.cfg.transport = .bitbang → t.lines.data = s.lines.data ∧ t.lines.clk = s.lines.clk) ∧
        t.seq = if s.seq.k + 1 < s.cfg.nplanes then { s.seq with k := s.seq.k + 1, i := 0, sub := .words }
                else ⟨.yield, 0, 0, .words, 0⟩) ∧
      ∀ e, failureOf s.cfg.transport .oeOn (takeDraw s).1 = some e →
        t.trace = s.trace ++ [.fail e] ∧ t.err = e ∧ t.seq = { s.seq with phase := .halted }

/-- 42_sequencer R126: the yield step. -/
def Obligations.YieldReturnsToDrain : Prop :=
  ∀ s : State, s.seq.phase = .yield → agentStep .sequencer s = .next { s with seq := ⟨.drain, 0, 0, .words, 0⟩ }

/-- 42_sequencer sections 1 and 2: a refresh pass in which no transfer fails emits every word of every resident plane in order,
each plane followed by its strobe, ends in YIELD and leaves FB as it was, whether Q is empty or the drain cap is reached when it
starts. With an empty schedule (log 3) it completes. With any producer steps and status reads scheduled between its steps, the
run, if every scheduled step is enabled, emits the same events. The transfers of the pass take their draws from the state
(log 4). -/
def Obligations.RefreshPassEmitsEveryPlaneInOrder : Prop :=
  ∀ s : State, s.Inv → s.seq.phase = .drain → (s.q = [] ∨ s.cfg.drainCap = some s.seq.drained) →
    s.cfg.nplanes * (s.cfg.planeLen + 2) ≤ s.draws.length →
    (∀ d ∈ s.draws.take (s.cfg.nplanes * (s.cfg.planeLen + 2)), drawOk d) →
    (s.sched = [] → ∃ t, Sys2Proof.core.run (passSteps s.cfg) s = .next t ∧
      t.trace = s.trace ++ passEvents s.cfg s.fb ∧ t.seq = ⟨.yield, 0, 0, .words, 0⟩ ∧
      t.fb = s.fb ∧ t.q = s.q ∧ t.err = s.err) ∧
    ∀ (acts rest : List Action) (t : State), s.sched = .sequencer :: (acts ++ rest) →
      (∀ a ∈ acts, a = .sequencer ∨ isProducer a = true ∨ ∃ n, a = .statusRead n) →
      acts.countP (fun a => a = .sequencer) = s.cfg.nplanes * (s.cfg.planeLen + 2) →
      Sys2Proof.core.run (1 + acts.length) s = .next t →
        t.trace = s.trace ++ passEvents s.cfg s.fb ∧ t.seq = ⟨.yield, 0, 0, .words, 0⟩ ∧
        t.fb = s.fb ∧ t.err = s.err ∧ t.sched = rest

/-- 42_sequencer section 2: with sixteen planes resident, a pixel of gray v is on in exactly v of the sixteen transfers of its word
in the events of a pass. -/
def Obligations.GrayIsTheNumberOfPlanesShown : Prop :=
  ∀ (s : State) (x y v : Nat), s.Inv → s.cfg.nplanes = 16 → onPanel s.cfg x y → v < 16 →
    PixelHolds s.cfg s.fb x y v →
    (List.range 16).countP (fun k =>
      match (passEvents s.cfg s.fb)[k * (s.cfg.planeLen + 2) + (mapAt s.cfg x y).wi]? with
      | some (.word w) => w.getLsbD (mapAt s.cfg x y).bo
      | _ => false) = v

/-! ### The transport -/

/-- 44_transport R161: the fifty pin writes of a bit-banged word, most significant bit first, then the latch pulse. -/
def Obligations.BitbangWordIsFiftyPinWrites : Prop :=
  ∀ w : Word,
    (subOps .bitbang (.word w)).length = 50 ∧
    (∀ n < 16,
      (subOps .bitbang (.word w))[3 * n]? = some (.pin .data (w.getLsbD (15 - n))) ∧
      (subOps .bitbang (.word w))[3 * n + 1]? = some (.pin .clk true) ∧
      (subOps .bitbang (.word w))[3 * n + 2]? = some (.pin .clk false)) ∧
    (subOps .bitbang (.word w))[48]? = some (.pin .latch true) ∧
    (subOps .bitbang (.word w))[49]? = some (.pin .latch false) ∧
    ∀ n < 50, ∀ d : Draw, d.failAt = some n → failureOf .bitbang (.word w) d = some .pinError

/-- 44_transport section 1: the four sub-operations of a word over SPI, the bits they put on the data line, most significant first, and
the kind each reports when it fails. That a draw's index past the last sub-operation fails none is the model's choice (log 4). -/
def Obligations.SpiWordIsTwoBytesThenLatch : Prop :=
  ∀ (w : Word) (d c : Bool),
    subOps .spi (.word w) =
      [.spiWrite (BitVec.ofNat 8 (w.toNat / 256)), .spiWrite (BitVec.ofNat 8 (w.toNat % 256)),
       .pin .latch true, .pin .latch false] ∧
    wireBits d c (subOps .spi (.word w)) = (List.range 16).map (fun n => w.getLsbD (15 - n)) ∧
    ∀ (n : Nat) (dr : Draw), dr.failAt = some n →
      failureOf .spi (.word w) dr = if n < 2 then some .busError else if n < 4 then some .pinError else none

/-- 44_transport section 1: both forms put the same sixteen bits on the data line, bit 15 first, with one latch pulse; the clock
line is low before a bit-banged word, as the invariant says. A bit-banged bit counts at the rising clock (log 23); for a whole
word the falling clock gives the same bits. -/
def Obligations.BothWireFormsShiftTheSameBits : Prop :=
  ∀ (w : Word) (d c : Bool),
    wireBits d false (subOps .bitbang (.word w)) = (List.range 16).map (fun n => w.getLsbD (15 - n)) ∧
    wireBits d false (subOps .bitbang (.word w)) = wireBits d c (subOps .spi (.word w)) ∧
    (subOps .bitbang (.word w)).countP (fun o => o = .pin .latch true) = 1 ∧
    (subOps .spi (.word w)).countP (fun o => o = .pin .latch true) = 1

/-- 44_transport R166: which kinds of error each operation can return in each form, that each of them and ok can occur, that no
other kind does, and that the kind reported is the failed sub-operation's. -/
def Obligations.TransferFailureKinds : Prop :=
  (∀ (w : Word) (e : Option ErrKind),
    (∃ d, failureOf .bitbang (.word w) d = e) ↔ (e = none ∨ e = some .pinError)) ∧
  (∀ (w : Word) (e : Option ErrKind),
    (∃ d, failureOf .spi (.word w) d = e) ↔ (e = none ∨ e = some .pinError ∨ e = some .busError)) ∧
  (∀ (tr : Transport) (e : Option ErrKind),
    (∃ d, failureOf tr .oeOff d = e) ↔ (e = none ∨ e = some .pinError)) ∧
  (∀ (tr : Transport) (e : Option ErrKind),
    (∃ d, failureOf tr .oeOn d = e) ↔ (e = none ∨ e = some .pinError)) ∧
  (∀ (tr : Transport) (op : TransportOp) (d : Draw) (n : Nat) (o : WireOp), d.failAt = some n → (subOps tr op)[n]? = some o →
    failureOf tr op d = some o.errKind)

/-- 44_transport sections 1 and 2: a transfer that returns ok appends its event and leaves the lines as its sub-operations drive
them, and one that returns err(e) appends Fail(e). The draws and the record `wire` are the model's (log 4, log 10): an index past
the last sub-operation fails none; the record gets the sub-operations before a failed one and none after it, and leaves the
failed one out whether or not it changed its line. The levels after a failure are the draw's, whatever they are (log 5), and so
are data and clk after any transfer over SPI (log 6). -/
def Obligations.TransferRecordsWhatHappened : Prop :=
  ∀ (s : State) (op : TransportOp),
    ((xfer op s).1 = none →
      (xfer op s).2.trace = s.trace ++ [op.event] ∧
      (xfer op s).2.wire = s.wire ++ subOps s.cfg.transport op ∧
      (xfer op s).2.lines = linesAfter s.cfg.transport op (takeDraw s).1 s.lines) ∧
    (∀ e, (xfer op s).1 = some e → (xfer op s).2.trace = s.trace ++ [.fail e]) ∧
    (∀ n, (takeDraw s).1.failAt = some n → (subOps s.cfg.transport op).length ≤ n → (xfer op s).1 = none) ∧
    ((takeDraw s).1.failAt = none → (xfer op s).1 = none) ∧
    ∀ n o, (takeDraw s).1.failAt = some n → (subOps s.cfg.transport op)[n]? = some o →
      (xfer op s).1 = some o.errKind ∧
      (xfer op s).2.trace = s.trace ++ [.fail o.errKind] ∧
      (xfer op s).2.wire = s.wire ++ (subOps s.cfg.transport op).take n ∧
      (xfer op s).2.lines = (takeDraw s).1.lines

/-- 44_transport section 1, 95_test_vectors V-TR5: each of OeOff and OeOn is one pin write, which sets oe_en and leaves latch, and
under BITBANG data and clk, as they were (under SPI these two are not specified); the pin's level follows OE_ACTIVE_LOW. -/
def Obligations.OutputEnableIsOnePinWrite : Prop :=
  (∀ tr : Transport, subOps tr .oeOff = [.pin .oeEn false] ∧ subOps tr .oeOn = [.pin .oeEn true]) ∧
  (∀ s : State, (xfer .oeOff s).1 = none →
    (xfer .oeOff s).2.lines.oeEn = false ∧ (xfer .oeOff s).2.lines.latch = s.lines.latch ∧
    (s.cfg.transport = .bitbang → (xfer .oeOff s).2.lines = { s.lines with oeEn := false }) ∧
    oePin (xfer .oeOff s).2 = s.cfg.oeActiveLow) ∧
  (∀ s : State, (xfer .oeOn s).1 = none →
    (xfer .oeOn s).2.lines.oeEn = true ∧ (xfer .oeOn s).2.lines.latch = s.lines.latch ∧
    (s.cfg.transport = .bitbang → (xfer .oeOn s).2.lines = { s.lines with oeEn := true }) ∧
    oePin (xfer .oeOn s).2 = !s.cfg.oeActiveLow)

/-! ### Halting -/

/-- 60_exceptions R183: when the transfer of a REFRESH step fails with kind e, the step completes with ERR set, the phase HALTED,
the position kept and Fail(e) in the trace; the frame buffer, Q, the held pushes and the diagnostics do not change. -/
def Obligations.FailedTransferHaltsTheSequencer : Prop :=
  ∀ (s : State) (e : ErrKind), s.seq.phase = .refresh →
    failureOf s.cfg.transport (dueOp s) (takeDraw s).1 = some e →
    ∃ t, agentStep .sequencer s = .next t ∧
      t.err = e ∧ t.seq = { s.seq with phase := .halted } ∧ t.trace = s.trace ++ [.fail e] ∧
      t.fb = s.fb ∧ t.q = s.q ∧ t.blk = s.blk ∧ t.drop = s.drop ∧ t.dropCount = s.dropCount ∧ t.badtag = s.badtag ∧
      t.cfg = s.cfg

/-- 42_sequencer section 1: a sequencer turn stops exactly in HALTED, where no sequencer step is enabled, and is never refused. -/
def Obligations.SequencerStopsExactlyInHalted : Prop :=
  ∀ s : State,
    (agentStep .sequencer s = .fault .sequencerHalted ↔ s.seq.phase = .halted) ∧
    (s.seq.phase ≠ .halted → ∃ t, agentStep .sequencer s = .next t)

/-- 60_exceptions section 2: RESET and RESTART lead from HALTED back to DRAIN with ERR clear; every other step leaves the sequencer
halted, with ERR, FB, the lines and the trace as they were. -/
def Obligations.OnlyResetOrRestartLeavesHalted : Prop :=
  ∀ (a : Action) (s t : State), s.seq.phase = .halted → agentStep a s = .next t →
    (isResetOrRestart a = true → t.seq = ⟨.drain, 0, 0, .words, 0⟩ ∧ t.err = .none) ∧
    (isResetOrRestart a = false →
      t.seq = s.seq ∧ t.err = s.err ∧ t.fb = s.fb ∧ t.lines = s.lines ∧ t.trace = s.trace)

/-! ### The queue and the ports -/

/-- 43_queue section 1: a non-blocking push at a free port appends its word, or is dropped and recorded when Q is full; at a held port
it is not enabled, which the model answers with the refusal portHeld (log 7). -/
def Obligations.NonBlockingPushAppendsOrDrops : Prop :=
  ∀ (s : State) (p : Nat) (m : MsgWord),
    (portSlot s p = some none → s.q.length < s.cfg.qcap →
      agentStep (.pushNb p m) s = .next { s with q := s.q ++ [m] }) ∧
    (portSlot s p = some none → s.cfg.qcap ≤ s.q.length →
      agentStep (.pushNb p m) s = .next { s with
        drop := true
        dropCount := if s.dropCount.toNat < 0xFFFF then s.dropCount + 1#16 else s.dropCount }) ∧
    (∀ m', portSlot s p = some (some m') → agentStep (.pushNb p m) s = .refused .portHeld)

/-- 43_queue section 1: a blocking push is issued at a free port whatever Q holds, completes exactly when Q has room, and holds its
port until it completes or RESET discards it. A step that is not enabled is refused as queueFull or portHeld, the model's names
(log 7). -/
def Obligations.BlockingPushHoldsItsPort : Prop :=
  (∀ (s : State) (p : Nat) (m : MsgWord), portSlot s p = some none →
    ∃ t, agentStep (.pushBlk p m) s = .next t ∧ t = { s with blk := t.blk } ∧ portSlot t p = some (some m) ∧
      ∀ p', p' ≠ p → portSlot t p' = portSlot s p') ∧
  (∀ (s : State) (p : Nat) (m : MsgWord), portSlot s p = some (some m) → s.q.length < s.cfg.qcap →
    ∃ t, agentStep (.pushDone p) s = .next t ∧ t = { s with q := s.q ++ [m], blk := t.blk } ∧ portSlot t p = some none ∧
      ∀ p', p' ≠ p → portSlot t p' = portSlot s p') ∧
  (∀ (s : State) (p : Nat) (m : MsgWord), portSlot s p = some (some m) → s.cfg.qcap ≤ s.q.length →
    agentStep (.pushDone p) s = .refused .queueFull) ∧
  (∀ (s : State) (p : Nat) (m m' : MsgWord), portSlot s p = some (some m) →
    agentStep (.pushNb p m') s = .refused .portHeld ∧ agentStep (.pushBlk p m') s = .refused .portHeld) ∧
  (∀ (a : Action) (s t : State) (p : Nat) (m : MsgWord), portSlot s p = some (some m) → agentStep a s = .next t →
    portSlot t p = some (some m) ∨ a = .pushDone p ∨ a = .reset ∨ a = .resetAndRestart)

/-- 43_queue R143 and section 2: a step leaves Q as it was, or a producer appends one word, or the sequencer takes the head in a
DRAIN step, or RESET empties it. -/
def Obligations.QueueIsFirstInFirstOut : Prop :=
  ∀ (a : Action) (s t : State), agentStep a s = .next t →
    t.q = s.q ∨
    (isProducer a = true ∧ ∃ m, t.q = s.q ++ [m]) ∨
    (a = .sequencer ∧ s.seq.phase = .drain ∧ ∃ m, s.q = m :: t.q) ∨
    ((a = .reset ∨ a = .resetAndRestart) ∧ t.q = [])

/-- 00_scope R6, 20_memory section 5, 60_exceptions section 4: producers change only Q, their own slots and the drop diagnostics;
the sequencer never changes a slot or the drop diagnostics; FB changes only in DRAIN steps of the sequencer and at RESET
or RESTART; a status read changes nothing of the block. -/
def Obligations.EachAgentTouchesOnlyItsOwn : Prop :=
  (∀ (a : Action) (s t : State), isProducer a = true → agentStep a s = .next t →
    t = { s with q := t.q, blk := t.blk, drop := t.drop, dropCount := t.dropCount }) ∧
  (∀ (a : Action) (s t : State) (p : Nat), isProducer a = true → actionPort a ≠ some p → agentStep a s = .next t →
    portSlot t p = portSlot s p) ∧
  (∀ s t : State, agentStep .sequencer s = .next t →
    t.blk = s.blk ∧ t.drop = s.drop ∧ t.dropCount = s.dropCount ∧ t.cfg = s.cfg ∧ t.sched = s.sched ∧ t.reads = s.reads) ∧
  (∀ s t : State, agentStep .sequencer s = .next t → s.seq.phase = .drain →
    t.trace = s.trace ∧ t.wire = s.wire ∧ t.lines = s.lines ∧ t.err = s.err) ∧
  (∀ (a : Action) (s t : State), agentStep a s = .next t → t.fb ≠ s.fb →
    (a = .sequencer ∧ s.seq.phase = .drain) ∨ isResetOrRestart a = true) ∧
  (∀ (n : Nat) (s t : State), agentStep (.statusRead n) s = .next t → t = { s with reads := t.reads })

/-- 42_sequencer section 1, 43_queue section 1, 60_exceptions section 4: an agent's step completes exactly when it is enabled. -/
def Obligations.StepCompletesExactlyWhenEnabled : Prop :=
  ∀ (a : Action) (s : State), (∃ t, agentStep a s = .next t) ↔ Enabled a s

/-! ### The supervisor and reset -/

/-- 10_state R30 to R34: a status read gives the register's value, any number but 0 to 3 reads 0, and nothing of the block changes.
`reads` is the model's record of the values given (log 10). -/
def Obligations.StatusReadGivesTheRegisters : Prop :=
  (∀ (s : State) (n : Nat), s.Inv →
    agentStep (.statusRead n) s = .next { s with reads := s.reads ++ [(n, statusReg s n)] } ∧
    (statusReg s 0).toNat =
      (if s.seq.phase = .halted then 1 else 0)
      + 2 * (match s.err with
        | .none => 0
        | .pinError => 1
        | .busError => 2
        | .deviceError => 3
        | .bufferError => 4)
      + (if s.badtag then 16 else 0) + (if s.drop then 32 else 0)
      + 64 * (match s.seq.phase with
        | .drain => 0
        | .refresh => 1
        | .yield => 2
        | .halted => 3)
      + 256 * (match s.seq.sub with
        | .words => 0
        | .oeOff => 1
        | .oeOn => 2) ∧
    (statusReg s 1).toNat = s.q.length ∧
    statusReg s 2 = s.dropCount ∧
    (statusReg s 3).toNat = 16 * s.seq.i + s.seq.k ∧
    (4 ≤ n → statusReg s n = 0#16)) ∧
  ∀ (c : Config) (n : Nat), statusReg (State.resetWith c) n = 0#16

/-- 70_reset_and_hazards R200, R203: RESET, alone or with RESTART, gives every piece of state its reset value and keeps the trace.
Under SPI the levels of data and clk are not specified (log 6). -/
def Obligations.ResetSetsEveryResetValue : Prop :=
  ∀ s : State,
    agentStep .resetAndRestart s = agentStep .reset s ∧
    ∃ t, agentStep .reset s = .next t ∧
      (∀ j, readWord t.fb j = 0x0000#16) ∧ t.q = [] ∧ t.blk = List.replicate s.cfg.nprod none ∧
      t.seq = ⟨.drain, 0, 0, .words, 0⟩ ∧ t.err = .none ∧ t.drop = false ∧ t.dropCount = 0#16 ∧ t.badtag = false ∧
      t.lines.latch = false ∧ t.lines.oeEn = false ∧
      (s.cfg.transport = .bitbang → t.lines.data = false ∧ t.lines.clk = false) ∧
      t.trace = s.trace ∧ t.cfg = s.cfg

/-- 70_reset_and_hazards section 1: RESTART gives the sequencer a new life and keeps Q, the held pushes, the diagnostics and the
trace. Under SPI the levels of data and clk are taken as not specified, as in 10_state section 6 (log 6). -/
def Obligations.RestartKeepsTheQueue : Prop :=
  ∀ s : State, ∃ t, agentStep .restart s = .next t ∧
    t.seq = ⟨.drain, 0, 0, .words, 0⟩ ∧ t.err = .none ∧ (∀ j, readWord t.fb j = 0x0000#16) ∧
    t.lines.latch = false ∧ t.lines.oeEn = false ∧
    (s.cfg.transport = .bitbang → t.lines.data = false ∧ t.lines.clk = false) ∧
    t.q = s.q ∧ t.blk = s.blk ∧ t.drop = s.drop ∧ t.dropCount = s.dropCount ∧ t.badtag = s.badtag ∧
    t.trace = s.trace ∧ t.cfg = s.cfg

/-- 10_state R38 (and R21 to R29): the values after reset, for every configuration; State.reset is that state in configuration S,
which is the model's choice (log 2). -/
def Obligations.ResetStateHasTheResetValues : Prop :=
  State.reset = State.resetWith configS ∧
  ∀ c : Config,
    (∀ j, readWord (State.resetWith c).fb j = 0x0000#16) ∧ (State.resetWith c).q = [] ∧
    (∀ p, 1 ≤ p → p ≤ c.nprod → portSlot (State.resetWith c) p = some none) ∧
    (State.resetWith c).seq = ⟨.drain, 0, 0, .words, 0⟩ ∧ (State.resetWith c).err = .none ∧
    (State.resetWith c).drop = false ∧ (State.resetWith c).dropCount = 0#16 ∧ (State.resetWith c).badtag = false ∧
    (State.resetWith c).lines.latch = false ∧ (State.resetWith c).lines.oeEn = false ∧
    (c.transport = .bitbang → (State.resetWith c).lines.data = false ∧ (State.resetWith c).lines.clk = false) ∧
    (State.resetWith c).trace = []

/-- 70_reset_and_hazards section 2: boot accepts exactly the legal configurations, a running block refuses a change of configuration
(log 14), and no step changes it. -/
def Obligations.ConfigurationIsFixedAtBoot : Prop :=
  (∀ c : Config, c.WellFormed → boot c = .next (State.resetWith c)) ∧
  (∀ c : Config, ¬ c.WellFormed → boot c = .refused .badConfig) ∧
  (∀ (c : Config) (s : State), agentStep (.reconfigure c) s = .refused .configChange) ∧
  ∀ s t : State, step s = .next t → t.cfg = s.cfg

/-! ### Steps, invariants -/

/-- The model's scheduling convention (log 3): the step is the agent step that stands first in the schedule, taken off it, or a turn
of the sequencer when the schedule is empty. -/
def Obligations.StepIsTheScheduledAgentStep : Prop :=
  (∀ s : State, s.sched = [] → step s = agentStep .sequencer s) ∧
  ∀ (s : State) (a : Action) (rest : List Action), s.sched = a :: rest → step s = agentStep a { s with sched := rest }

/-- A step runs the decoded message: in DRAIN below the cap, on the sequencer's turn, it is exec of the message decoded from the head
of Q, on the state without that word, and then the count of `drained` (42_sequencer section 1; the turn is log 3). -/
def Obligations.StepRunsTheDecodedMessage : Prop :=
  ∀ (s : State) (m : MsgWord) (rest : List MsgWord), chosenAction s = .sequencer → s.seq.phase = .drain →
    s.q = m :: rest → (∀ n, s.cfg.drainCap = some n → s.seq.drained < n) →
    ∃ t, exec (decode m) { s with q := rest, sched := s.sched.tail } = .next t ∧
      step s = .next { t with
        seq := { t.seq with drained := if s.cfg.drainCap = none then t.seq.drained else t.seq.drained + 1 } }

/-- The placed word is the next message run (log 15): from every state of a legal configuration. -/
def Obligations.PlacedWordIsRunNext : Prop :=
  ∀ (s : State) (nbits w : Nat) (i : Instr), s.cfg.WellFormed → decodeTableWord nbits w = some i →
    ∃ t, exec i { s with q := s.q.tail, seq := ⟨.drain, 0, 0, .words, 0⟩ } = .next t ∧
      step (s.withFetchWord nbits w) = .next { t with
        seq := { t.seq with drained := if s.cfg.drainCap = none then 0 else 1 } }

/-- 70_reset_and_hazards section 2, in every legal configuration: with nothing pushed, the first step after reset starts a refresh
pass, whose words are all 0x0000 and before which oe_en is 0; a message pushed before the sequencer's first step is applied by
that step instead. Who has the turn is log 3. -/
def Obligations.FirstStepAfterResetStartsAPass : Prop :=
  ∀ c : Config, c.WellFormed →
    step (State.resetWith c) = .next { State.resetWith c with seq := ⟨.refresh, 0, 0, .words, 0⟩ } ∧
    (State.resetWith c).lines.oeEn = false ∧
    (∀ e ∈ passEvents c (State.resetWith c).fb, e = .word 0x0000#16 ∨ e = .oeOff ∨ e = .oeOn) ∧
    ∀ (p : Nat) (m : MsgWord), 1 ≤ p → p ≤ c.nprod →
      step { State.resetWith c with sched := [.pushNb p m] } = .next { State.resetWith c with q := [m] } ∧
      ∃ t, exec (decode m) (State.resetWith c) = .next t ∧
        step { State.resetWith c with q := [m] } = .next { t with
          seq := { t.seq with drained := if c.drainCap = none then 0 else 1 } }

/-- Every step keeps the invariant of the state: the canonical frame buffer within FB_LEN, Q within QCAP, a legal position, ERR set
exactly in HALTED, legal line levels, DROP and DROPCOUNT together. -/
def Obligations.EveryStepKeepsTheStateInvariant : Prop :=
  ∀ s t : State, s.Inv → step s = .next t → t.Inv

/-- The invariant of the state holds after reset, in every legal configuration. -/
def Obligations.StateInvariantHoldsAtReset : Prop :=
  State.reset.Inv ∧ ∀ c : Config, c.WellFormed → (State.resetWith c).Inv

/-- 40_framebuffer section 6: every step keeps the pixel invariant, each pixel's bits in the resident planes being a row of the gray
table. -/
def Obligations.EveryStepKeepsEveryPixelAGray : Prop :=
  ∀ s t : State, s.Inv → PixelInv s → step s = .next t → PixelInv t

/-- 40_framebuffer section 6: the pixel invariant holds after reset, in every legal configuration. -/
def Obligations.EveryPixelIsAGrayAtReset : Prop :=
  ∀ c : Config, c.WellFormed → PixelInv (State.resetWith c)

/-- Whatever the environment does after boot, every state reached meets the invariant of the state and the pixel invariant. -/
def Obligations.EveryReachableStateIsLegal : Prop :=
  ∀ s : State, Reachable s → s.Inv ∧ PixelInv s

/-- 70_reset_and_hazards section 2, 44_transport section 1: the outputs, once disabled, are enabled only by an OE_ON step of the
sequencer, or left enabled by a transfer that fails, whose line levels are not specified (log 5). -/
def Obligations.OnlyOeOnEnablesTheOutputs : Prop :=
  ∀ (a : Action) (s t : State), agentStep a s = .next t → s.lines.oeEn = false → t.lines.oeEn = true →
    a = .sequencer ∧ s.seq.phase = .refresh ∧ (s.seq.sub = .oeOn ∨ t.seq.phase = .halted)

/-! ### Infinite runs

The spec assumes weak fairness of the sequencer (42_sequencer section 2). Here it is a hypothesis, `WeaklyFair`, in the reading of
log 18. -/

/-- 00_scope section 2: the first n steps of any infinite run are a run of the machine whose schedule lists them (log 3). -/
def Obligations.RunPrefixIsAScheduledRun : Prop :=
  ∀ (st : Nat → State) (act : Nat → Action), IsRun st act → ∀ (n : Nat) (rest : List Action),
    Sys2Proof.core.run n { st 0 with sched := scheduleOf act n ++ rest } = .next { st n with sched := rest }

/-- 42_sequencer section 2, under weak fairness: a refresh pass ends, in YIELD, or at a halt, RESET or RESTART, and the sequencer is
in REFRESH until then. -/
def Obligations.EveryPassOfAFairRunEnds : Prop :=
  ∀ (st : Nat → State) (act : Nat → Action) (n : Nat), IsRun st act → WeaklyFair st act → (st n).Inv →
    (st n).seq.phase = .refresh →
    ∃ m, n ≤ m ∧ (∀ j, n ≤ j → j ≤ m → (st j).seq.phase = .refresh) ∧
      (isResetOrRestart (act m) = true ∨
        (act m = .sequencer ∧ ((st (m + 1)).seq.phase = .yield ∨ (st (m + 1)).seq.phase = .halted)))

/-- 42_sequencer section 2, under weak fairness: a queued message is applied, after those before it in Q and whatever is pushed
behind it, unless the sequencer halts or RESET empties Q. RESTART does not lose it. -/
def Obligations.EveryQueuedMessageIsAppliedInAFairRun : Prop :=
  ∀ (st : Nat → State) (act : Nat → Action) (n : Nat) (before after : List MsgWord) (m : MsgWord),
    IsRun st act → WeaklyFair st act → (st n).Inv → (st n).q = before ++ m :: after →
    ∃ k, n ≤ k ∧ ((st k).seq.phase = .halted ∨ act k = .reset ∨ act k = .resetAndRestart ∨
      (act k = .sequencer ∧ ∃ pushed t, (st k).q = m :: (after ++ pushed) ∧
        exec (decode m) { st k with q := after ++ pushed } = .next t ∧
        st (k + 1) = { t with
          seq := { t.seq with
            drained := if (st k).cfg.drainCap = none then t.seq.drained else t.seq.drained + 1 } }))

/-- 42_sequencer section 2, under weak fairness: once the producers cease, a refresh pass starts, unless the sequencer halts or the
supervisor asserts RESET or RESTART. -/
def Obligations.APassStartsOnceProducersCease : Prop :=
  ∀ (st : Nat → State) (act : Nat → Action) (n : Nat), IsRun st act → WeaklyFair st act → (st n).Inv →
    (∀ k, n ≤ k → isProducer (act k) = false) →
    ∃ k, n ≤ k ∧ ((st k).seq.phase = .refresh ∨ (st k).seq.phase = .halted ∨ isResetOrRestart (act k) = true)

/-- 42_sequencer section 2, 95_test_vectors V-SEQ11: fairness gives no refresh rate. With DRAIN_CAP = INF some fair run from reset
never leaves DRAIN. State.reset is in configuration S (log 2). -/
def Obligations.AFairRunCanStarveRefresh : Prop :=
  ∃ (st : Nat → State) (act : Nat → Action), IsRun st act ∧ WeaklyFair st act ∧ st 0 = State.reset ∧
    ∀ n, (st n).seq.phase = .drain ∧ (st n).trace = []
end

