-- ==== Sys2Proof/Laws/Encoding.lean ====
section
/-! SUPPORT. The fields of the message word as numbers, and what the encoder's packing leaves in each field. -/

namespace Sys2Proof

/-- A field is the quotient of the word by the weight of its lowest bit, cut to its width. -/
theorem field_as_number (m : MsgWord) (low width : Nat) :
    m.extractLsb' low width = BitVec.ofNat width (m.toNat / 2 ^ low) := by
  apply BitVec.eq_of_toNat_eq
  simp [BitVec.extractLsb'_toNat, Nat.shiftRight_eq_div_pow]

theorem tagOf_eq_iff (m : MsgWord) (t : BitVec 4) : tagOf m = t ↔ m.toNat % 16 = t.toNat := by
  unfold tagOf
  rw [field_as_number, ← BitVec.toNat_inj]
  simp

/-- Each field of a packed message is the operand given for it (30_encoding R61). -/
theorem packMessage_fields (y1 x1 y0 x0 : BitVec 8) (val tag : BitVec 4) :
    tagOf (packMessage y1 x1 y0 x0 val tag) = tag ∧ valOf (packMessage y1 x1 y0 x0 val tag) = val ∧
    x0Of (packMessage y1 x1 y0 x0 val tag) = x0 ∧ y0Of (packMessage y1 x1 y0 x0 val tag) = y0 ∧
    x1Of (packMessage y1 x1 y0 x0 val tag) = x1 ∧ y1Of (packMessage y1 x1 y0 x0 val tag) = y1 := by
  have hn : (packMessage y1 x1 y0 x0 val tag).toNat =
      ((((y1.toNat * 256 + x1.toNat) * 256 + y0.toNat) * 256 + x0.toNat) * 16 + val.toNat) * 16 + tag.toNat := by
    unfold packMessage
    simp only [BitVec.toNat_append]
    rw [← Nat.shiftLeft_add_eq_or_of_lt tag.isLt, ← Nat.shiftLeft_add_eq_or_of_lt val.isLt,
      ← Nat.shiftLeft_add_eq_or_of_lt x0.isLt, ← Nat.shiftLeft_add_eq_or_of_lt y0.isLt,
      ← Nat.shiftLeft_add_eq_or_of_lt x1.isLt]
    simp only [Nat.shiftLeft_eq]
  have a1 := y1.isLt
  have a2 := x1.isLt
  have a3 := y0.isLt
  have a4 := x0.isLt
  have a5 := val.isLt
  have a6 := tag.isLt
  unfold tagOf valOf x0Of y0Of x1Of y1Of
  simp only [field_as_number, hn, ← BitVec.toNat_inj, BitVec.toNat_ofNat]
  omega

end Sys2Proof
end

