-- ==== Sys2Proof/Laws/Memory.lean ====
section
/-! SUPPORT. The laws of the frame buffer's words: read after write, the canonical form, extensionality, loops. -/

namespace Sys2Proof.Machine

theorem readWord_of_forall_ne {m : Memory} {j : Nat} (h : ∀ e ∈ m, e.1 ≠ j) : readWord m j = 0#16 := by
  induction m with
  | nil => rfl
  | cons e rest ih =>
    obtain ⟨a, v⟩ := e
    have ha : a ≠ j := h (a, v) (by simp)
    simp only [readWord, if_neg ha]
    exact ih fun e he => h e (List.mem_cons_of_mem _ he)

theorem Memory.wf_tail {e : Cell} {rest : Memory} (h : Memory.wf (e :: rest)) : Memory.wf rest :=
  ⟨(List.pairwise_cons.1 h.1).2, fun x hx => h.2 x (List.mem_cons_of_mem _ hx)⟩

theorem readWord_below_tail {a : Nat} {v : Word} {rest : Memory} (h : Memory.wf ((a, v) :: rest)) {j : Nat}
    (hj : j ≤ a) : readWord rest j = 0#16 := by
  refine readWord_of_forall_ne fun e he => ?_
  have := (List.pairwise_cons.1 h.1).1 e he
  simp only at this
  omega

/-- Read after write: the word written, and every other word as before. -/
theorem readWord_writeWord {m : Memory} (hm : m.wf) (j : Nat) (v : Word) (i : Nat) :
    readWord (writeWord m j v) i = if i = j then v else readWord m i := by
  induction m with
  | nil =>
    by_cases hv : v = 0#16
    · subst hv; simp [writeWord, readWord]
    · simp only [writeWord, if_neg hv, readWord, eq_comm]
  | cons e rest ih =>
    obtain ⟨a, w⟩ := e
    have ih := ih (Memory.wf_tail hm)
    rw [writeWord]
    by_cases h1 : j < a
    · rw [if_pos h1]
      by_cases h2 : v = 0#16
      · rw [if_pos h2]
        by_cases hi : i = j
        · rw [if_pos hi, h2, hi, readWord, if_neg (by omega), readWord_below_tail hm (by omega)]
        · rw [if_neg hi]
      · rw [if_neg h2, readWord]
        simp only [eq_comm]
    · rw [if_neg h1]
      by_cases h3 : j = a
      · rw [if_pos h3]
        by_cases h4 : v = 0#16
        · rw [if_pos h4]
          by_cases hi : i = j
          · rw [if_pos hi, h4, readWord_below_tail hm (by omega)]
          · rw [if_neg hi, readWord, if_neg (by omega)]
        · rw [if_neg h4, readWord, readWord]
          by_cases hi : i = j
          · rw [if_pos hi, if_pos (by omega)]
          · rw [if_neg hi, if_neg (by omega), if_neg (by omega)]
      · rw [if_neg h3, readWord, readWord, ih]
        by_cases hi : a = i
        · rw [if_pos hi, if_neg (by omega), if_pos hi]
        · rw [if_neg hi, if_neg hi]

theorem mem_writeWord {m : Memory} {j : Nat} {v : Word} {e : Cell} (h : e ∈ writeWord m j v) :
    e ∈ m ∨ (e = (j, v) ∧ v ≠ 0#16) := by
  induction m with
  | nil =>
    unfold writeWord at h
    split_ifs at h with hv
    · exact .inl h
    · exact .inr ⟨by simpa using h, hv⟩
  | cons c rest ih =>
    obtain ⟨a, w⟩ := c
    unfold writeWord at h
    split_ifs at h with h1 h2 h3 h4
    · exact .inl h
    · rcases List.mem_cons.1 h with h | h
      · exact .inr ⟨h, h2⟩
      · exact .inl h
    · exact .inl (List.mem_cons_of_mem _ h)
    · rcases List.mem_cons.1 h with h | h
      · exact .inr ⟨by rw [h, h3], h4⟩
      · exact .inl (List.mem_cons_of_mem _ h)
    · rcases List.mem_cons.1 h with h | h
      · exact .inl (h ▸ List.mem_cons_self)
      · rcases ih h with h | h
        · exact .inl (List.mem_cons_of_mem _ h)
        · exact .inr h

/-- A write keeps the canonical form. -/
theorem writeWord_wf {m : Memory} (hm : m.wf) (j : Nat) (v : Word) : (writeWord m j v).wf := by
  refine ⟨?_, fun e he => ?_⟩
  · induction m with
    | nil => unfold writeWord; split_ifs <;> simp
    | cons c rest ih =>
      obtain ⟨a, w⟩ := c
      have hc := List.pairwise_cons.1 hm.1
      have ih := ih (Memory.wf_tail hm)
      unfold writeWord
      split_ifs with h1 h2 h3 h4
      · exact hm.1
      · refine List.pairwise_cons.2 ⟨fun e he => ?_, hm.1⟩
        rcases List.mem_cons.1 he with he | he
        · simpa [he] using h1
        · exact lt_trans h1 (hc.1 e he)
      · exact hc.2
      · exact List.pairwise_cons.2 ⟨hc.1, hc.2⟩
      · refine List.pairwise_cons.2 ⟨fun e he => ?_, ih⟩
        rcases mem_writeWord he with he | ⟨he, -⟩
        · exact hc.1 e he
        · rw [he]; show a < j; omega
  · rcases mem_writeWord he with he | ⟨he, hv⟩
    · exact hm.2 e he
    · rw [he]; exact hv

/-- A write to an index that exists lists no index that does not. -/
theorem writeWord_within {m : Memory} {n : Nat} (hm : m.within n) {j : Nat} (hj : j < n) (v : Word) :
    (writeWord m j v).within n := by
  intro e he
  rcases mem_writeWord he with he | ⟨he, -⟩
  · exact hm e he
  · rw [he]; exact hj

/-- A word past the last index reads 0x0000. -/
theorem readWord_of_within {m : Memory} {n : Nat} (hm : m.within n) {j : Nat} (hj : n ≤ j) :
    readWord m j = 0#16 :=
  readWord_of_forall_ne fun e he => by have := hm e he; omega

theorem readWord_mem {m : Memory} (hm : m.wf) {e : Cell} (he : e ∈ m) : readWord m e.1 = e.2 := by
  induction m with
  | nil => simp at he
  | cons c rest ih =>
    obtain ⟨a, w⟩ := c
    rcases List.mem_cons.1 he with he | he
    · simp [he, readWord]
    · have := (List.pairwise_cons.1 hm.1).1 e he
      simp only at this
      simp only [readWord, if_neg (by omega : a ≠ e.1)]
      exact ih (Memory.wf_tail hm) he

/-- Canonical frame buffers that read alike are equal data. -/
theorem memory_ext {m m' : Memory} (hm : m.wf) (hm' : m'.wf) (h : ∀ j, readWord m j = readWord m' j) :
    m = m' := by
  induction m generalizing m' with
  | nil =>
    cases m' with
    | nil => rfl
    | cons e rest =>
      have h1 := h e.1
      rw [readWord_mem hm' List.mem_cons_self] at h1
      exact absurd h1.symm (hm'.2 e List.mem_cons_self)
  | cons c rest ih =>
    cases m' with
    | nil =>
      have h1 := h c.1
      rw [readWord_mem hm List.mem_cons_self] at h1
      exact absurd h1 (hm.2 c List.mem_cons_self)
    | cons c' rest' =>
      obtain ⟨a, v⟩ := c
      obtain ⟨a', v'⟩ := c'
      have hv : v ≠ 0#16 := hm.2 (a, v) List.mem_cons_self
      have hv' : v' ≠ 0#16 := hm'.2 (a', v') List.mem_cons_self
      have haa : a = a' := by
        have h1 := h a
        have h2 := h a'
        simp only [readWord, if_true] at h1 h2
        by_contra hne
        rw [if_neg (Ne.symm hne)] at h1
        rw [if_neg hne] at h2
        rcases Nat.lt_or_ge a a' with hlt | hge
        · exact hv (h1.trans (readWord_below_tail hm' hlt.le))
        · exact hv' (h2.symm.trans (readWord_below_tail hm hge))
      subst haa
      have hvv : v = v' := by simpa [readWord] using h a
      subst hvv
      congr 1
      refine ih (Memory.wf_tail hm) (Memory.wf_tail hm') fun j => ?_
      by_cases hj : j ≤ a
      · rw [readWord_below_tail hm hj, readWord_below_tail hm' hj]
      · have h1 := h j
        rwa [readWord, readWord, if_neg (by omega), if_neg (by omega)] at h1

/-- The empty frame buffer is canonical. -/
theorem Memory.nil_wf : Memory.wf [] := ⟨List.Pairwise.nil, by simp⟩

theorem forRange_empty {a b : Nat} (h : b ≤ a) (body : Nat → Memory → Memory) (m : Memory) :
    forRange a b body m = m := by
  simp [forRange, Nat.sub_eq_zero_of_le h]

theorem forRange_step {a b : Nat} (h : a < b) (body : Nat → Memory → Memory) (m : Memory) :
    forRange a b body m = forRange (a + 1) b body (body a m) := by
  unfold forRange
  rw [show b - a = (b - (a + 1)) + 1 by omega, List.range'_succ, List.foldl_cons]

/-- The induction of a loop: what holds before it and is carried over each run of its body holds after it. -/
theorem forRange_induct {P : Nat → Memory → Prop} {a b : Nat} {body : Nat → Memory → Memory} {m : Memory}
    (hab : a ≤ b) (h0 : P a m) (hs : ∀ k acc, a ≤ k → k < b → P k acc → P (k + 1) (body k acc)) :
    P b (forRange a b body m) := by
  obtain ⟨n, rfl⟩ := Nat.exists_eq_add_of_le hab
  induction n generalizing a m with
  | zero => rw [forRange_empty (by omega)]; exact h0
  | succ n ih =>
    rw [forRange_step (by omega), show a + (n + 1) = (a + 1) + n by omega]
    exact ih (hs a m le_rfl (by omega) h0) (by omega) fun k acc h1 h2 => hs k acc (by omega) (by omega)

/-- A property each run of the body keeps is kept by the loop. -/
theorem forRange_keeps {P : Memory → Prop} {a b : Nat} {body : Nat → Memory → Memory} {m : Memory}
    (h0 : P m) (hs : ∀ k acc, a ≤ k → k < b → P acc → P (body k acc)) : P (forRange a b body m) := by
  rcases Nat.le_total a b with hab | hab
  · exact forRange_induct (P := fun _ acc => P acc) hab h0 hs
  · rw [forRange_empty hab]; exact h0

theorem fillWords_wf {m : Memory} (hm : m.wf) (a b : Nat) (v : Word) : (fillWords a b v m).wf :=
  forRange_keeps hm fun k _ _ _ h => writeWord_wf h k v

theorem fillWords_within {m : Memory} {n : Nat} (hm : m.within n) (a : Nat) {b : Nat} (hb : b ≤ n) (v : Word) :
    (fillWords a b v m).within n :=
  forRange_keeps (P := fun acc => acc.within n) hm fun k acc _ hk h =>
    writeWord_within (m := acc) h (by omega : k < n) v

/-- What a word-wide fill leaves. -/
theorem readWord_fillWords {m : Memory} (hm : m.wf) (a b : Nat) (v : Word) (j : Nat) :
    readWord (fillWords a b v m) j = if a ≤ j ∧ j < b then v else readWord m j := by
  rcases Nat.le_total a b with hab | hab
  · refine (forRange_induct
      (P := fun k acc => acc.wf ∧ ∀ j, readWord acc j = if a ≤ j ∧ j < k then v else readWord m j)
      hab ⟨hm, fun j => by rw [if_neg (by omega)]⟩ fun k acc h1 h2 ⟨h3, h4⟩ => ?_).2 j
    refine ⟨writeWord_wf h3 k v, fun j => ?_⟩
    rw [readWord_writeWord h3, h4]
    by_cases hjk : j = k
    · rw [if_pos hjk, if_pos (by omega)]
    · rw [if_neg hjk]
      by_cases hj : a ≤ j ∧ j < k
      · rw [if_pos hj, if_pos (by omega)]
      · rw [if_neg hj, if_neg (by omega)]
  · rw [fillWords, forRange_empty hab, if_neg (by omega)]

end Sys2Proof.Machine
end

