-- ==== Sys2Proof/Laws/Pixels.lean ====
section
/-! SUPPORT. What a well-formed configuration gives for MAP, and what the pixel operations do, bit by bit. -/

namespace Sys2Proof.Machine

theorem planeLen_pos {c : Config} (hc : c.WellFormed) : 0 < c.planeLen := hc.2.1.1

theorem nplanes_le {c : Config} (hc : c.WellFormed) : c.nplanes ≤ 16 := hc.2.2.1.2

theorem nplanes_pos {c : Config} (hc : c.WellFormed) : 0 < c.nplanes := hc.2.2.1.1

theorem mapIndex_lt {c : Config} {x y : Nat} (h : onPanel c x y) : y * c.w + x < c.w * c.h := by
  obtain ⟨hx, hy⟩ := h
  calc y * c.w + x < y * c.w + c.w := by omega
    _ = (y + 1) * c.w := by ring
    _ ≤ c.h * c.w := Nat.mul_le_mul_right _ hy
    _ = c.w * c.h := Nat.mul_comm _ _

theorem mapIndex_lt_length {c : Config} (hc : c.WellFormed) {x y : Nat} (h : onPanel c x y) :
    y * c.w + x < c.map.length := by
  rw [hc.2.2.2.1.1]; exact mapIndex_lt h

theorem mapAt_eq {c : Config} (hc : c.WellFormed) {x y : Nat} (h : onPanel c x y) :
    mapAt c x y = c.map[y * c.w + x]'(mapIndex_lt_length hc h) := by
  simp [mapAt, List.getD_eq_getElem?_getD, List.getElem?_eq_getElem (mapIndex_lt_length hc h)]

/-- MAP's results are in range (00_scope R10). -/
theorem mapAt_range {c : Config} (hc : c.WellFormed) {x y : Nat} (h : onPanel c x y) :
    (mapAt c x y).wi < c.planeLen ∧ (mapAt c x y).bo < 16 := by
  rw [mapAt_eq hc h]
  exact hc.2.2.2.1.2.1 _ (List.getElem_mem _)

/-- MAP is injective (00_scope R10). -/
theorem mapAt_injective {c : Config} (hc : c.WellFormed) {x y x' y' : Nat} (h : onPanel c x y)
    (h' : onPanel c x' y') (he : mapAt c x y = mapAt c x' y') : x = x' ∧ y = y' := by
  rw [mapAt_eq hc h, mapAt_eq hc h'] at he
  have hi := (List.Nodup.getElem_inj_iff hc.2.2.2.1.2.2).1 he
  have hw : 0 < c.w := by have := h.1; omega
  have hy : y = y' := by
    have h1 := congrArg (· / c.w) hi
    simpa [Nat.add_div_of_dvd_right, Nat.mul_comm y, Nat.mul_comm y', Nat.mul_add_div hw,
      Nat.div_eq_of_lt h.1, Nat.div_eq_of_lt h'.1] using h1
  subst hy
  exact ⟨by omega, rfl⟩

/-- A plane and a word within it from an index. -/
theorem index_div_mod {n k wi : Nat} (hw : wi < n) : (k * n + wi) / n = k ∧ (k * n + wi) % n = wi := by
  have hn : 0 < n := by omega
  constructor
  · rw [Nat.mul_comm, Nat.mul_add_div hn, Nat.div_eq_of_lt hw, Nat.add_zero]
  · rw [Nat.mul_comm, Nat.mul_add_mod, Nat.mod_eq_of_lt hw]

/-- The word of a pixel in a resident plane exists, and only there (20_memory R42). -/
theorem pixelAddr_lt_iff {c : Config} {k wi : Nat} (hw : wi < c.planeLen) :
    planeOffset c k + wi < fbLen c ↔ k < c.nplanes := by
  unfold planeOffset fbLen
  constructor
  · intro h
    by_contra hk
    have : c.nplanes * c.planeLen ≤ k * c.planeLen := Nat.mul_le_mul_right _ (by omega)
    omega
  · intro h
    have : (k + 1) * c.planeLen ≤ c.nplanes * c.planeLen := Nat.mul_le_mul_right _ h
    rw [Nat.add_mul] at this
    omega

theorem planeOffset_inj {c : Config} {k k' wi wi' : Nat} (hw : wi < c.planeLen) (hw' : wi' < c.planeLen)
    (h : planeOffset c k + wi = planeOffset c k' + wi') : k = k' ∧ wi = wi' := by
  unfold planeOffset at h
  have h1 := index_div_mod (k := k) hw
  have h2 := index_div_mod (k := k') hw'
  rw [h] at h1
  exact ⟨h1.1.symm.trans h2.1, h1.2.symm.trans h2.2⟩

/-- Only bit `bo` changes (40_framebuffer R84). -/
theorem getLsbD_putBit (w : Word) {bo : Nat} (hbo : bo < 16) (bit : Bool) (b : Nat) :
    (putBit w bo bit).getLsbD b = if b = bo then bit else w.getLsbD b := by
  by_cases hb : b < 16
  · cases bit
    · simp only [putBit, Bool.false_eq_true, if_false, BitVec.getLsbD_or, BitVec.getLsbD_and,
        BitVec.getLsbD_not, BitVec.getLsbD_shiftLeft, hb, decide_true, Bool.true_and]
      by_cases h : b = bo
      · subst h; simp
      · by_cases h' : b < bo
        · simp [h, h']
        · have : b - bo ≠ 0 := by omega
          simp [h, h', this]
    · simp only [putBit, if_true, BitVec.getLsbD_or, BitVec.getLsbD_and,
        BitVec.getLsbD_not, BitVec.getLsbD_shiftLeft, hb, decide_true, Bool.true_and]
      by_cases h : b = bo
      · subst h; simp
      · by_cases h' : b < bo
        · simp [h, h']
        · have : b - bo ≠ 0 := by omega
          simp [h, h', this]
  · rw [BitVec.getLsbD_of_ge _ _ (by omega), if_neg (by omega), BitVec.getLsbD_of_ge _ _ (by omega)]

theorem setPixel_wf {m : Memory} (hm : m.wf) (c : Config) (x y : Nat) (bit : Bool) (off : Nat) :
    (setPixel c x y bit off m).wf := by
  unfold setPixel
  split_ifs
  · exact writeWord_wf hm _ _
  · exact hm
  · exact hm

theorem setPixel_within {c : Config} {m : Memory} (hm : m.within (fbLen c)) (x y : Nat) (bit : Bool) (off : Nat) :
    (setPixel c x y bit off m).within (fbLen c) := by
  unfold setPixel
  split_ifs with h1 h2
  · exact writeWord_within hm h2 _
  · exact hm
  · exact hm

/-- `set_pixel` changes one bit of one word, or nothing (40_framebuffer R84). -/
theorem getLsbD_setPixel {c : Config} (hc : c.WellFormed) {m : Memory} (hm : m.wf) (x y : Nat) (bit : Bool)
    (off j b : Nat) :
    (readWord (setPixel c x y bit off m) j).getLsbD b =
      if onPanel c x y ∧ off + (mapAt c x y).wi < fbLen c ∧ j = off + (mapAt c x y).wi ∧ b = (mapAt c x y).bo
      then bit else (readWord m j).getLsbD b := by
  unfold setPixel
  by_cases h1 : onPanel c x y
  · rw [if_pos h1]
    by_cases h2 : off + (mapAt c x y).wi < fbLen c
    · rw [if_pos h2, readWord_writeWord hm]
      by_cases h3 : j = off + (mapAt c x y).wi
      · rw [if_pos h3, getLsbD_putBit _ (mapAt_range hc h1).2, h3]
        by_cases h4 : b = (mapAt c x y).bo
        · rw [if_pos h4, if_pos ⟨h1, h2, rfl, h4⟩]
        · rw [if_neg h4, if_neg fun h => h4 h.2.2.2]
      · rw [if_neg h3, if_neg fun h => h3 h.2.2.1]
    · rw [if_neg h2, if_neg fun h => h2 h.2.1]
  · rw [if_neg h1, if_neg fun h => h1 h.1]

theorem setPixelGray_wf {m : Memory} (hm : m.wf) (c : Config) (x y v : Nat) : (setPixelGray c x y v m).wf := by
  unfold setPixelGray
  split_ifs
  · exact forRange_keeps hm fun k acc _ _ h => setPixel_wf h c x y _ _
  · exact hm

theorem setPixelGray_within {c : Config} {m : Memory} (hm : m.within (fbLen c)) (x y v : Nat) :
    (setPixelGray c x y v m).within (fbLen c) := by
  unfold setPixelGray
  split_ifs
  · exact forRange_keeps (P := fun acc => acc.within (fbLen c)) hm fun k acc _ _ h =>
      setPixel_within (m := acc) h x y _ _
  · exact hm

/-- `set_pixel_gray` writes LUT[v][k] to the pixel's bit of every resident plane k, and no other bit (40_framebuffer R85). -/
theorem getLsbD_setPixelGray {c : Config} (hc : c.WellFormed) {m : Memory} (hm : m.wf) (x y v j b : Nat) :
    (readWord (setPixelGray c x y v m) j).getLsbD b =
      if onPanel c x y ∧ j < fbLen c ∧ mapAt c x y = ⟨j % c.planeLen, b⟩
      then lut c v (j / c.planeLen) else (readWord m j).getLsbD b := by
  unfold setPixelGray
  by_cases h1 : onPanel c x y
  · rw [if_pos h1]
    have hr := mapAt_range hc h1
    refine ((forRange_induct
      (P := fun k acc => acc.wf ∧ ∀ j b, (readWord acc j).getLsbD b =
        if j < fbLen c ∧ j / c.planeLen < k ∧ mapAt c x y = ⟨j % c.planeLen, b⟩
        then lut c v (j / c.planeLen) else (readWord m j).getLsbD b)
      (Nat.zero_le 16) ⟨hm, fun j b => by rw [if_neg fun h => Nat.not_lt_zero _ h.2.1]⟩
      fun k acc _ _ ⟨h3, h4⟩ => ?_).2 j b).trans ?_
    · refine ⟨setPixel_wf h3 c x y _ _, fun j b => ?_⟩
      rw [getLsbD_setPixel hc h3, h4]
      have hdm := index_div_mod (k := k) hr.1
      by_cases hj : onPanel c x y ∧ planeOffset c k + (mapAt c x y).wi < fbLen c ∧
          j = planeOffset c k + (mapAt c x y).wi ∧ b = (mapAt c x y).bo
      · obtain ⟨-, hlt, hj, hb⟩ := hj
        have hjd : j / c.planeLen = k := by rw [hj]; exact hdm.1
        have hjm : j % c.planeLen = (mapAt c x y).wi := by rw [hj]; exact hdm.2
        rw [if_pos ⟨h1, hlt, hj, hb⟩, if_pos ⟨hj ▸ hlt, by omega, by rw [hjm, hb]⟩, hjd]
      · rw [if_neg hj]
        by_cases hq : j < fbLen c ∧ j / c.planeLen < k ∧ mapAt c x y = ⟨j % c.planeLen, b⟩
        · rw [if_pos hq, if_pos ⟨hq.1, by omega, hq.2.2⟩]
        · rw [if_neg hq, if_neg]
          rintro ⟨ha, hb, he⟩
          have hk : j / c.planeLen = k := by
            by_contra hne
            exact hq ⟨ha, by omega, he⟩
          have hjj : j = planeOffset c k + (mapAt c x y).wi := by
            rw [he, ← hk]; exact (Nat.div_add_mod' j c.planeLen).symm
          exact hj ⟨h1, hjj ▸ ha, hjj, by rw [he]⟩
    · have hk : j < fbLen c → j / c.planeLen < 16 := by
        intro hj
        have := Nat.div_lt_of_lt_mul (by rwa [Nat.mul_comm] : j < c.planeLen * c.nplanes)
        have := nplanes_le hc
        omega
      by_cases hq : j < fbLen c ∧ mapAt c x y = ⟨j % c.planeLen, b⟩
      · rw [if_pos ⟨hq.1, hk hq.1, hq.2⟩, if_pos ⟨h1, hq⟩]
      · rw [if_neg fun h => hq ⟨h.1, h.2.2⟩, if_neg fun h => hq h.2]
  · rw [if_neg h1, if_neg fun h => h1 h.1]

/-- A pixel's bits after another pixel's, or the same pixel's, gray is written (40_framebuffer R85). -/
theorem pixelBit_setPixelGray {c : Config} (hc : c.WellFormed) {m : Memory} (hm : m.wf) {x y x' y' v k : Nat}
    (h : onPanel c x y) (hk : k < c.nplanes) :
    pixelBit c (setPixelGray c x' y' v m) x y k = if x = x' ∧ y = y' then lut c v k else pixelBit c m x y k := by
  have hr := mapAt_range hc h
  have hdm := index_div_mod (k := k) hr.1
  rw [pixelBit, getLsbD_setPixelGray hc hm]
  have hlt : pixelAddr c x y k < fbLen c := (pixelAddr_lt_iff hr.1).2 hk
  have hd : pixelAddr c x y k / c.planeLen = k := hdm.1
  have hm' : pixelAddr c x y k % c.planeLen = (mapAt c x y).wi := hdm.2
  rw [hd, hm']
  by_cases he : x = x' ∧ y = y'
  · obtain ⟨rfl, rfl⟩ := he
    rw [if_pos ⟨h, hlt, rfl⟩, if_pos ⟨rfl, rfl⟩]
  · rw [if_neg he, if_neg]
    · rfl
    · rintro ⟨h1, -, h3⟩
      obtain ⟨rfl, rfl⟩ := mapAt_injective hc h1 h h3
      exact he ⟨rfl, rfl⟩

/-- The bits no pixel maps to, and the words past FB_LEN, are left alone (20_memory R44). -/
theorem getLsbD_setPixelGray_unmapped {c : Config} (hc : c.WellFormed) {m : Memory} (hm : m.wf) (x y v : Nat)
    {j b : Nat} (h : fbLen c ≤ j ∨ Unmapped c j b) :
    (readWord (setPixelGray c x y v m) j).getLsbD b = (readWord m j).getLsbD b := by
  rw [getLsbD_setPixelGray hc hm, if_neg]
  rintro ⟨h1, h2, h3⟩
  rcases h with h | h
  · omega
  · exact h x y h1 h3

/-- `set_pixel_gray` off the panel does nothing (40_framebuffer R91). -/
theorem setPixelGray_off {c : Config} {x y : Nat} (h : ¬ onPanel c x y) (v : Nat) (m : Memory) :
    setPixelGray c x y v m = m := by
  unfold setPixelGray; rw [if_neg h]

/-- Two frame buffers of FB_LEN words agree when all pixels' bits and all other bits do. -/
theorem memory_ext_pixels {c : Config} {m m' : Memory} (hm : m.wf) (hm' : m'.wf)
    (hp : ∀ x y k, onPanel c x y → k < c.nplanes → pixelBit c m x y k = pixelBit c m' x y k)
    (hu : ∀ j b, fbLen c ≤ j ∨ Unmapped c j b → (readWord m j).getLsbD b = (readWord m' j).getLsbD b) :
    m = m' := by
  refine memory_ext hm hm' fun j => BitVec.eq_of_getLsbD_eq fun b _ => ?_
  by_cases h : fbLen c ≤ j ∨ Unmapped c j b
  · exact hu j b h
  · push Not at h
    obtain ⟨hj, hmap⟩ := h
    simp only [Unmapped, ne_eq, not_forall, not_not] at hmap
    obtain ⟨x, y, hxy, he⟩ := hmap
    have hk : j / c.planeLen < c.nplanes :=
      Nat.div_lt_of_lt_mul (by rw [Nat.mul_comm]; exact hj)
    have := hp x y (j / c.planeLen) hxy hk
    have hpa : pixelAddr c x y (j / c.planeLen) = j := by
      rw [pixelAddr, he, planeOffset]; exact Nat.div_add_mod' j c.planeLen
    rwa [pixelBit, pixelBit, hpa, he] at this

end Sys2Proof.Machine
end

