-- ==== Sys2Proof/Laws/Messages.lean ====
section
/-! SUPPORT. What the loops of the messages do to the frame buffer, and what each message answers. -/

namespace Sys2Proof.Machine

/-- `t` is `m` with every pixel of the region painted with its gray, and nothing else changed. -/
structure Painted (c : Config) (m t : Memory) (region : Nat → Nat → Prop) (gray : Nat → Nat → Nat) : Prop where
  wf     : t.wf
  within : m.within (fbLen c) → t.within (fbLen c)
  inside : ∀ x y k, onPanel c x y → k < c.nplanes → region x y → pixelBit c t x y k = lut c (gray x y) k
  beside : ∀ x y k, onPanel c x y → k < c.nplanes → ¬ region x y → pixelBit c t x y k = pixelBit c m x y k
  others : ∀ j b, fbLen c ≤ j ∨ Unmapped c j b → (readWord t j).getLsbD b = (readWord m j).getLsbD b

theorem Painted.nothing {c : Config} {m : Memory} (hm : m.wf) {region : Nat → Nat → Prop} {gray : Nat → Nat → Nat}
    (h : ∀ x y, ¬ region x y) : Painted c m m region gray where
  wf := hm
  within := id
  inside := fun x y _ _ _ hr => absurd hr (h x y)
  beside := fun _ _ _ _ _ _ => rfl
  others := fun _ _ _ => rfl

/-- The gray painted may be read from the frame buffer at hand, as long as it depends on that pixel's bits only. -/
abbrev OwnPixel (c : Config) (gray : Nat → Nat → Memory → Nat) : Prop :=
  ∀ x y m m', (∀ k, k < c.nplanes → pixelBit c m x y k = pixelBit c m' x y k) → gray x y m = gray x y m'

/-- One row of a rectangle. -/
theorem painted_row {c : Config} (hc : c.WellFormed) {m : Memory} (hm : m.wf) {gray : Nat → Nat → Memory → Nat}
    (hg : OwnPixel c gray) (x0 x1 y : Nat) :
    Painted c m (forRange x0 x1 (fun x acc => setPixelGray c x y (gray x y acc) acc) m)
      (fun px py => (x0 ≤ px ∧ px < x1) ∧ py = y) (fun px py => gray px py m) := by
  rcases Nat.le_total x0 x1 with hx | hx
  · refine forRange_induct
      (P := fun x acc => Painted c m acc (fun px py => (x0 ≤ px ∧ px < x) ∧ py = y) (fun px py => gray px py m))
      hx (.nothing hm fun px py h => by omega) fun x acc h1 h2 h => ?_
    by_cases hxy : onPanel c x y
    · have hgx : gray x y acc = gray x y m := hg x y acc m fun k hk => h.beside x y k hxy hk (by omega)
      refine ⟨setPixelGray_wf h.wf c x y _, fun hw => setPixelGray_within (h.within hw) x y _,
        fun px py k hp hk hr => ?_, fun px py k hp hk hr => ?_, fun j b hj => ?_⟩
      · rw [pixelBit_setPixelGray hc h.wf hp hk]
        by_cases he : px = x ∧ py = y
        · rw [if_pos he, hgx, he.1, he.2]
        · rw [if_neg he]
          exact h.inside px py k hp hk (by omega)
      · rw [pixelBit_setPixelGray hc h.wf hp hk, if_neg (by omega)]
        exact h.beside px py k hp hk (by omega)
      · rw [getLsbD_setPixelGray_unmapped hc h.wf _ _ _ hj]
        exact h.others j b hj
    · rw [setPixelGray_off hxy]
      refine ⟨h.wf, h.within, fun px py k hp hk hr => ?_, fun px py k hp hk hr => ?_, h.others⟩
      · refine h.inside px py k hp hk ?_
        by_cases he : px = x
        · exact absurd hp (by rw [he, hr.2]; exact hxy)
        · omega
      · exact h.beside px py k hp hk (by omega)
  · rw [forRange_empty hx]
    exact .nothing hm fun px py h => by omega

/-- A rectangle, row by row. -/
theorem painted_rect {c : Config} (hc : c.WellFormed) {m : Memory} (hm : m.wf) {gray : Nat → Nat → Memory → Nat}
    (hg : OwnPixel c gray) (x0 x1 y0 y1 : Nat) :
    Painted c m
      (forRange y0 y1 (fun y acc => forRange x0 x1 (fun x acc' => setPixelGray c x y (gray x y acc') acc') acc) m)
      (fun px py => (x0 ≤ px ∧ px < x1) ∧ y0 ≤ py ∧ py < y1) (fun px py => gray px py m) := by
  rcases Nat.le_total y0 y1 with hy | hy
  · refine forRange_induct
      (P := fun y acc => Painted c m acc (fun px py => (x0 ≤ px ∧ px < x1) ∧ y0 ≤ py ∧ py < y)
        (fun px py => gray px py m))
      hy (.nothing hm fun px py h => by omega) fun y acc h1 h2 h => ?_
    have hrow := painted_row hc h.wf hg x0 x1 y
    refine ⟨hrow.wf, fun hw => hrow.within (h.within hw), fun px py k hp hk hr => ?_,
      fun px py k hp hk hr => ?_, fun j b hj => (hrow.others j b hj).trans (h.others j b hj)⟩
    · by_cases he : py = y
      · rw [hrow.inside px py k hp hk ⟨hr.1, he⟩]
        rw [hg px py acc m fun k hk => h.beside px py k hp hk (by omega)]
      · rw [hrow.beside px py k hp hk (by omega)]
        exact h.inside px py k hp hk (by omega)
    · rw [hrow.beside px py k hp hk (by omega)]
      exact h.beside px py k hp hk (by omega)
  · rw [forRange_empty hy]
    exact .nothing hm fun px py h => by omega

theorem pixelGray_congr {c : Config} {m m' : Memory} {x y : Nat}
    (h : ∀ k, k < c.nplanes → pixelBit c m x y k = pixelBit c m' x y k) : pixelGray c m x y = pixelGray c m' x y := by
  unfold pixelGray
  congr 1
  refine List.countP_congr fun k hk => ?_
  rw [h k (List.mem_range.1 hk)]

/-- A whole-plane fill of every resident plane by a row of the gray table (41_messages R104). -/
theorem readWord_planeFills {c : Config} (hc : c.WellFormed) {m : Memory} (hm : m.wf) (bit : Nat → Bool) :
    (forRange 0 c.nplanes (fun k acc => planeFill c k (bit k) acc) m).wf ∧
    (m.within (fbLen c) → (forRange 0 c.nplanes (fun k acc => planeFill c k (bit k) acc) m).within (fbLen c)) ∧
    ∀ j, readWord (forRange 0 c.nplanes (fun k acc => planeFill c k (bit k) acc) m) j =
      if j < fbLen c then (if bit (j / c.planeLen) then 0xFFFF#16 else 0x0000#16) else readWord m j := by
  have hpl := planeLen_pos hc
  refine (forRange_induct
    (P := fun k acc => k ≤ c.nplanes → acc.wf ∧ (m.within (fbLen c) → acc.within (fbLen c)) ∧
      ∀ j, readWord acc j =
        if j < k * c.planeLen then (if bit (j / c.planeLen) then 0xFFFF#16 else 0x0000#16) else readWord m j)
    (Nat.zero_le _) (fun _ => ⟨hm, id, fun j => by simp⟩) fun k acc _ hk h _ => ?_) le_rfl
  obtain ⟨h1, h2, h3⟩ := h hk.le
  have hle : planeOffset c k + c.planeLen ≤ fbLen c := by
    have : (k + 1) * c.planeLen ≤ c.nplanes * c.planeLen := Nat.mul_le_mul_right _ hk
    rw [Nat.add_mul] at this
    unfold planeOffset fbLen
    omega
  refine ⟨fillWords_wf h1 _ _ _, fun hw => fillWords_within (h2 hw) _ hle _, fun j => ?_⟩
  rw [planeFill, readWord_fillWords h1, h3, planeOffset, Nat.add_mul, Nat.one_mul]
  by_cases hj : k * c.planeLen ≤ j ∧ j < k * c.planeLen + c.planeLen
  · have hd : j / c.planeLen = k := by
      rw [Nat.div_eq_iff hpl]; omega
    rw [if_pos hj, if_pos hj.2, hd]
  · rw [if_neg hj]
    by_cases hj' : j < k * c.planeLen
    · rw [if_pos hj', if_pos (show j < k * c.planeLen + c.planeLen by omega)]
    · rw [if_neg hj', if_neg (by omega)]

/-- `clear()` leaves the empty frame buffer (40_framebuffer R86). -/
theorem clearAll_eq_nil {c : Config} {m : Memory} (hm : m.wf) (hw : m.within (fbLen c)) : clearAll c m = [] := by
  refine memory_ext (fillWords_wf hm _ _ _) Memory.nil_wf fun j => ?_
  rw [clearAll, readWord_fillWords hm]
  split_ifs with h
  · rfl
  · rw [readWord_of_within hw (by omega)]; rfl

/-- SetPixel's frame buffer (41_messages R100). -/
theorem painted_setPixel {c : Config} (hc : c.WellFormed) {m : Memory} (hm : m.wf) (x y v : Nat) :
    Painted c m (setPixelGray c x y v m) (fun px py => px = x ∧ py = y) (fun _ _ => v) where
  wf := setPixelGray_wf hm c x y v
  within := fun hw => setPixelGray_within hw x y v
  inside := fun px py k hp hk hr => by rw [pixelBit_setPixelGray hc hm hp hk, if_pos hr]
  beside := fun px py k hp hk hr => by rw [pixelBit_setPixelGray hc hm hp hk, if_neg hr]
  others := fun _ _ hj => getLsbD_setPixelGray_unmapped hc hm x y v hj

/-- SetBrightness's frame buffer (41_messages R103). -/
theorem painted_brightness {c : Config} (hc : c.WellFormed) {m : Memory} (hm : m.wf) (level : Nat) :
    Painted c m
      (forRange 0 c.h (fun y acc => forRange 0 c.w (fun x acc' => dimPixel c level x y acc') acc) m)
      (fun px py => (0 ≤ px ∧ px < c.w) ∧ 0 ≤ py ∧ py < c.h) (fun px py => pixelGray c m px py * level / 15) :=
  painted_rect hc hm (gray := fun x y acc => pixelGray c acc x y * level / 15)
    (fun x y m m' h => by show pixelGray c m x y * level / 15 = _; rw [pixelGray_congr h]) 0 c.w 0 c.h

end Sys2Proof.Machine
end

