-- ==== Sys2Proof/Laws/PerInstr.lean ====
section
/-! SUPPORT. The family EncodeTag: the canonical word of a message carries the message's tag (30_encoding R61, R64, R65). -/

namespace Sys2Proof.Laws.EncodeTag
open Sys2Proof

def Statement (i : Instr) : Prop := i.wellFormed = true → tagOf (encode i) = i.tag

theorem setPixel (x y : BitVec 8) (gray : BitVec 4) : Statement (.setPixel x y gray) :=
  fun _ => (packMessage_fields _ _ _ _ _ _).1

theorem fillPixels (x0 y0 x1 y1 : BitVec 8) (gray : BitVec 4) : Statement (.fillPixels x0 y0 x1 y1 gray) :=
  fun _ => (packMessage_fields _ _ _ _ _ _).1

theorem clear : Statement .clear := fun _ => (packMessage_fields _ _ _ _ _ _).1

theorem setBrightness (level : BitVec 4) : Statement (.setBrightness level) :=
  fun _ => (packMessage_fields _ _ _ _ _ _).1

theorem fullfill (level : BitVec 4) : Statement (.fullfill level) :=
  fun _ => (packMessage_fields _ _ _ _ _ _).1

theorem reservedTag0 : Statement .reservedTag0 := fun _ => (packMessage_fields _ _ _ _ _ _).1

theorem reservedTag6to7 (tag : BitVec 4) : Statement (.reservedTag6to7 tag) :=
  fun _ => (packMessage_fields _ _ _ _ _ _).1

theorem reservedTag8toF (tag : BitVec 4) : Statement (.reservedTag8toF tag) :=
  fun _ => (packMessage_fields _ _ _ _ _ _).1

end Sys2Proof.Laws.EncodeTag
end

