-- ==== Sys2Proof/Laws/State.lean ====
section
/-! SUPPORT. For each named update of the state, what it leaves in each field. -/

namespace Sys2Proof.Machine

@[simp] theorem setBadtag_fb (s : State) : (setBadtag s).fb = s.fb := rfl
@[simp] theorem setBadtag_q (s : State) : (setBadtag s).q = s.q := rfl
@[simp] theorem setBadtag_blk (s : State) : (setBadtag s).blk = s.blk := rfl
@[simp] theorem setBadtag_seq (s : State) : (setBadtag s).seq = s.seq := rfl
@[simp] theorem setBadtag_err (s : State) : (setBadtag s).err = s.err := rfl
@[simp] theorem setBadtag_drop (s : State) : (setBadtag s).drop = s.drop := rfl
@[simp] theorem setBadtag_dropCount (s : State) : (setBadtag s).dropCount = s.dropCount := rfl
@[simp] theorem setBadtag_badtag (s : State) : (setBadtag s).badtag = true := rfl
@[simp] theorem setBadtag_lines (s : State) : (setBadtag s).lines = s.lines := rfl
@[simp] theorem setBadtag_trace (s : State) : (setBadtag s).trace = s.trace := rfl
@[simp] theorem setBadtag_cfg (s : State) : (setBadtag s).cfg = s.cfg := rfl
@[simp] theorem setBadtag_sched (s : State) : (setBadtag s).sched = s.sched := rfl
@[simp] theorem setBadtag_draws (s : State) : (setBadtag s).draws = s.draws := rfl
@[simp] theorem setBadtag_drawn (s : State) : (setBadtag s).drawn = s.drawn := rfl
@[simp] theorem setBadtag_wire (s : State) : (setBadtag s).wire = s.wire := rfl
@[simp] theorem setBadtag_reads (s : State) : (setBadtag s).reads = s.reads := rfl

@[simp] theorem recordDrop_fb (s : State) : (recordDrop s).fb = s.fb := rfl
@[simp] theorem recordDrop_q (s : State) : (recordDrop s).q = s.q := rfl
@[simp] theorem recordDrop_blk (s : State) : (recordDrop s).blk = s.blk := rfl
@[simp] theorem recordDrop_seq (s : State) : (recordDrop s).seq = s.seq := rfl
@[simp] theorem recordDrop_err (s : State) : (recordDrop s).err = s.err := rfl
@[simp] theorem recordDrop_drop (s : State) : (recordDrop s).drop = true := rfl
@[simp] theorem recordDrop_dropCount (s : State) : (recordDrop s).dropCount = if s.dropCount = 0xFFFF#16 then s.dropCount else s.dropCount + 1#16 := rfl
@[simp] theorem recordDrop_badtag (s : State) : (recordDrop s).badtag = s.badtag := rfl
@[simp] theorem recordDrop_lines (s : State) : (recordDrop s).lines = s.lines := rfl
@[simp] theorem recordDrop_trace (s : State) : (recordDrop s).trace = s.trace := rfl
@[simp] theorem recordDrop_cfg (s : State) : (recordDrop s).cfg = s.cfg := rfl
@[simp] theorem recordDrop_sched (s : State) : (recordDrop s).sched = s.sched := rfl
@[simp] theorem recordDrop_draws (s : State) : (recordDrop s).draws = s.draws := rfl
@[simp] theorem recordDrop_drawn (s : State) : (recordDrop s).drawn = s.drawn := rfl
@[simp] theorem recordDrop_wire (s : State) : (recordDrop s).wire = s.wire := rfl
@[simp] theorem recordDrop_reads (s : State) : (recordDrop s).reads = s.reads := rfl

@[simp] theorem enqueue_fb (m : MsgWord) (s : State) : (enqueue m s).fb = s.fb := rfl
@[simp] theorem enqueue_q (m : MsgWord) (s : State) : (enqueue m s).q = s.q ++ [m] := rfl
@[simp] theorem enqueue_blk (m : MsgWord) (s : State) : (enqueue m s).blk = s.blk := rfl
@[simp] theorem enqueue_seq (m : MsgWord) (s : State) : (enqueue m s).seq = s.seq := rfl
@[simp] theorem enqueue_err (m : MsgWord) (s : State) : (enqueue m s).err = s.err := rfl
@[simp] theorem enqueue_drop (m : MsgWord) (s : State) : (enqueue m s).drop = s.drop := rfl
@[simp] theorem enqueue_dropCount (m : MsgWord) (s : State) : (enqueue m s).dropCount = s.dropCount := rfl
@[simp] theorem enqueue_badtag (m : MsgWord) (s : State) : (enqueue m s).badtag = s.badtag := rfl
@[simp] theorem enqueue_lines (m : MsgWord) (s : State) : (enqueue m s).lines = s.lines := rfl
@[simp] theorem enqueue_trace (m : MsgWord) (s : State) : (enqueue m s).trace = s.trace := rfl
@[simp] theorem enqueue_cfg (m : MsgWord) (s : State) : (enqueue m s).cfg = s.cfg := rfl
@[simp] theorem enqueue_sched (m : MsgWord) (s : State) : (enqueue m s).sched = s.sched := rfl
@[simp] theorem enqueue_draws (m : MsgWord) (s : State) : (enqueue m s).draws = s.draws := rfl
@[simp] theorem enqueue_drawn (m : MsgWord) (s : State) : (enqueue m s).drawn = s.drawn := rfl
@[simp] theorem enqueue_wire (m : MsgWord) (s : State) : (enqueue m s).wire = s.wire := rfl
@[simp] theorem enqueue_reads (m : MsgWord) (s : State) : (enqueue m s).reads = s.reads := rfl

@[simp] theorem setPort_fb (s : State) (p : Nat) (v : Option MsgWord) : (setPort s p v).fb = s.fb := rfl
@[simp] theorem setPort_q (s : State) (p : Nat) (v : Option MsgWord) : (setPort s p v).q = s.q := rfl
@[simp] theorem setPort_blk (s : State) (p : Nat) (v : Option MsgWord) : (setPort s p v).blk = s.blk.set (p - 1) v := rfl
@[simp] theorem setPort_seq (s : State) (p : Nat) (v : Option MsgWord) : (setPort s p v).seq = s.seq := rfl
@[simp] theorem setPort_err (s : State) (p : Nat) (v : Option MsgWord) : (setPort s p v).err = s.err := rfl
@[simp] theorem setPort_drop (s : State) (p : Nat) (v : Option MsgWord) : (setPort s p v).drop = s.drop := rfl
@[simp] theorem setPort_dropCount (s : State) (p : Nat) (v : Option MsgWord) : (setPort s p v).dropCount = s.dropCount := rfl
@[simp] theorem setPort_badtag (s : State) (p : Nat) (v : Option MsgWord) : (setPort s p v).badtag = s.badtag := rfl
@[simp] theorem setPort_lines (s : State) (p : Nat) (v : Option MsgWord) : (setPort s p v).lines = s.lines := rfl
@[simp] theorem setPort_trace (s : State) (p : Nat) (v : Option MsgWord) : (setPort s p v).trace = s.trace := rfl
@[simp] theorem setPort_cfg (s : State) (p : Nat) (v : Option MsgWord) : (setPort s p v).cfg = s.cfg := rfl
@[simp] theorem setPort_sched (s : State) (p : Nat) (v : Option MsgWord) : (setPort s p v).sched = s.sched := rfl
@[simp] theorem setPort_draws (s : State) (p : Nat) (v : Option MsgWord) : (setPort s p v).draws = s.draws := rfl
@[simp] theorem setPort_drawn (s : State) (p : Nat) (v : Option MsgWord) : (setPort s p v).drawn = s.drawn := rfl
@[simp] theorem setPort_wire (s : State) (p : Nat) (v : Option MsgWord) : (setPort s p v).wire = s.wire := rfl
@[simp] theorem setPort_reads (s : State) (p : Nat) (v : Option MsgWord) : (setPort s p v).reads = s.reads := rfl

@[simp] theorem raiseHalt_fb (e : ErrKind) (s : State) : (raiseHalt e s).fb = s.fb := rfl
@[simp] theorem raiseHalt_q (e : ErrKind) (s : State) : (raiseHalt e s).q = s.q := rfl
@[simp] theorem raiseHalt_blk (e : ErrKind) (s : State) : (raiseHalt e s).blk = s.blk := rfl
@[simp] theorem raiseHalt_seq (e : ErrKind) (s : State) : (raiseHalt e s).seq = { s.seq with phase := .halted } := rfl
@[simp] theorem raiseHalt_err (e : ErrKind) (s : State) : (raiseHalt e s).err = e := rfl
@[simp] theorem raiseHalt_drop (e : ErrKind) (s : State) : (raiseHalt e s).drop = s.drop := rfl
@[simp] theorem raiseHalt_dropCount (e : ErrKind) (s : State) : (raiseHalt e s).dropCount = s.dropCount := rfl
@[simp] theorem raiseHalt_badtag (e : ErrKind) (s : State) : (raiseHalt e s).badtag = s.badtag := rfl
@[simp] theorem raiseHalt_lines (e : ErrKind) (s : State) : (raiseHalt e s).lines = s.lines := rfl
@[simp] theorem raiseHalt_trace (e : ErrKind) (s : State) : (raiseHalt e s).trace = s.trace := rfl
@[simp] theorem raiseHalt_cfg (e : ErrKind) (s : State) : (raiseHalt e s).cfg = s.cfg := rfl
@[simp] theorem raiseHalt_sched (e : ErrKind) (s : State) : (raiseHalt e s).sched = s.sched := rfl
@[simp] theorem raiseHalt_draws (e : ErrKind) (s : State) : (raiseHalt e s).draws = s.draws := rfl
@[simp] theorem raiseHalt_drawn (e : ErrKind) (s : State) : (raiseHalt e s).drawn = s.drawn := rfl
@[simp] theorem raiseHalt_wire (e : ErrKind) (s : State) : (raiseHalt e s).wire = s.wire := rfl
@[simp] theorem raiseHalt_reads (e : ErrKind) (s : State) : (raiseHalt e s).reads = s.reads := rfl

@[simp] theorem startPass_fb (s : State) : (startPass s).fb = s.fb := rfl
@[simp] theorem startPass_q (s : State) : (startPass s).q = s.q := rfl
@[simp] theorem startPass_blk (s : State) : (startPass s).blk = s.blk := rfl
@[simp] theorem startPass_seq (s : State) : (startPass s).seq = ⟨.refresh, 0, 0, .words, 0⟩ := rfl
@[simp] theorem startPass_err (s : State) : (startPass s).err = s.err := rfl
@[simp] theorem startPass_drop (s : State) : (startPass s).drop = s.drop := rfl
@[simp] theorem startPass_dropCount (s : State) : (startPass s).dropCount = s.dropCount := rfl
@[simp] theorem startPass_badtag (s : State) : (startPass s).badtag = s.badtag := rfl
@[simp] theorem startPass_lines (s : State) : (startPass s).lines = s.lines := rfl
@[simp] theorem startPass_trace (s : State) : (startPass s).trace = s.trace := rfl
@[simp] theorem startPass_cfg (s : State) : (startPass s).cfg = s.cfg := rfl
@[simp] theorem startPass_sched (s : State) : (startPass s).sched = s.sched := rfl
@[simp] theorem startPass_draws (s : State) : (startPass s).draws = s.draws := rfl
@[simp] theorem startPass_drawn (s : State) : (startPass s).drawn = s.drawn := rfl
@[simp] theorem startPass_wire (s : State) : (startPass s).wire = s.wire := rfl
@[simp] theorem startPass_reads (s : State) : (startPass s).reads = s.reads := rfl

@[simp] theorem yieldStep_fb (s : State) : (yieldStep s).fb = s.fb := rfl
@[simp] theorem yieldStep_q (s : State) : (yieldStep s).q = s.q := rfl
@[simp] theorem yieldStep_blk (s : State) : (yieldStep s).blk = s.blk := rfl
@[simp] theorem yieldStep_seq (s : State) : (yieldStep s).seq = ⟨.drain, 0, 0, .words, 0⟩ := rfl
@[simp] theorem yieldStep_err (s : State) : (yieldStep s).err = s.err := rfl
@[simp] theorem yieldStep_drop (s : State) : (yieldStep s).drop = s.drop := rfl
@[simp] theorem yieldStep_dropCount (s : State) : (yieldStep s).dropCount = s.dropCount := rfl
@[simp] theorem yieldStep_badtag (s : State) : (yieldStep s).badtag = s.badtag := rfl
@[simp] theorem yieldStep_lines (s : State) : (yieldStep s).lines = s.lines := rfl
@[simp] theorem yieldStep_trace (s : State) : (yieldStep s).trace = s.trace := rfl
@[simp] theorem yieldStep_cfg (s : State) : (yieldStep s).cfg = s.cfg := rfl
@[simp] theorem yieldStep_sched (s : State) : (yieldStep s).sched = s.sched := rfl
@[simp] theorem yieldStep_draws (s : State) : (yieldStep s).draws = s.draws := rfl
@[simp] theorem yieldStep_drawn (s : State) : (yieldStep s).drawn = s.drawn := rfl
@[simp] theorem yieldStep_wire (s : State) : (yieldStep s).wire = s.wire := rfl
@[simp] theorem yieldStep_reads (s : State) : (yieldStep s).reads = s.reads := rfl

@[simp] theorem statusRead_fb (n : Nat) (s : State) : (statusRead n s).fb = s.fb := rfl
@[simp] theorem statusRead_q (n : Nat) (s : State) : (statusRead n s).q = s.q := rfl
@[simp] theorem statusRead_blk (n : Nat) (s : State) : (statusRead n s).blk = s.blk := rfl
@[simp] theorem statusRead_seq (n : Nat) (s : State) : (statusRead n s).seq = s.seq := rfl
@[simp] theorem statusRead_err (n : Nat) (s : State) : (statusRead n s).err = s.err := rfl
@[simp] theorem statusRead_drop (n : Nat) (s : State) : (statusRead n s).drop = s.drop := rfl
@[simp] theorem statusRead_dropCount (n : Nat) (s : State) : (statusRead n s).dropCount = s.dropCount := rfl
@[simp] theorem statusRead_badtag (n : Nat) (s : State) : (statusRead n s).badtag = s.badtag := rfl
@[simp] theorem statusRead_lines (n : Nat) (s : State) : (statusRead n s).lines = s.lines := rfl
@[simp] theorem statusRead_trace (n : Nat) (s : State) : (statusRead n s).trace = s.trace := rfl
@[simp] theorem statusRead_cfg (n : Nat) (s : State) : (statusRead n s).cfg = s.cfg := rfl
@[simp] theorem statusRead_sched (n : Nat) (s : State) : (statusRead n s).sched = s.sched := rfl
@[simp] theorem statusRead_draws (n : Nat) (s : State) : (statusRead n s).draws = s.draws := rfl
@[simp] theorem statusRead_drawn (n : Nat) (s : State) : (statusRead n s).drawn = s.drawn := rfl
@[simp] theorem statusRead_wire (n : Nat) (s : State) : (statusRead n s).wire = s.wire := rfl
@[simp] theorem statusRead_reads (n : Nat) (s : State) : (statusRead n s).reads = s.reads ++ [(n, statusReg s n)] := rfl

@[simp] theorem popSched_fb (s : State) : (popSched s).fb = s.fb := rfl
@[simp] theorem popSched_q (s : State) : (popSched s).q = s.q := rfl
@[simp] theorem popSched_blk (s : State) : (popSched s).blk = s.blk := rfl
@[simp] theorem popSched_seq (s : State) : (popSched s).seq = s.seq := rfl
@[simp] theorem popSched_err (s : State) : (popSched s).err = s.err := rfl
@[simp] theorem popSched_drop (s : State) : (popSched s).drop = s.drop := rfl
@[simp] theorem popSched_dropCount (s : State) : (popSched s).dropCount = s.dropCount := rfl
@[simp] theorem popSched_badtag (s : State) : (popSched s).badtag = s.badtag := rfl
@[simp] theorem popSched_lines (s : State) : (popSched s).lines = s.lines := rfl
@[simp] theorem popSched_trace (s : State) : (popSched s).trace = s.trace := rfl
@[simp] theorem popSched_cfg (s : State) : (popSched s).cfg = s.cfg := rfl
@[simp] theorem popSched_sched (s : State) : (popSched s).sched = s.sched.tail := rfl
@[simp] theorem popSched_draws (s : State) : (popSched s).draws = s.draws := rfl
@[simp] theorem popSched_drawn (s : State) : (popSched s).drawn = s.drawn := rfl
@[simp] theorem popSched_wire (s : State) : (popSched s).wire = s.wire := rfl
@[simp] theorem popSched_reads (s : State) : (popSched s).reads = s.reads := rfl

theorem countDrained_eq (s : State) : countDrained s =
    { s with seq := { s.seq with drained := if s.cfg.drainCap = none then s.seq.drained else s.seq.drained + 1 } } := by
  unfold countDrained
  split <;> rename_i h <;> simp [h]

@[simp] theorem countDrained_fb (s : State) : (countDrained s).fb = s.fb := by rw [countDrained_eq]
@[simp] theorem countDrained_q (s : State) : (countDrained s).q = s.q := by rw [countDrained_eq]
@[simp] theorem countDrained_blk (s : State) : (countDrained s).blk = s.blk := by rw [countDrained_eq]
@[simp] theorem countDrained_err (s : State) : (countDrained s).err = s.err := by rw [countDrained_eq]
@[simp] theorem countDrained_drop (s : State) : (countDrained s).drop = s.drop := by rw [countDrained_eq]
@[simp] theorem countDrained_dropCount (s : State) : (countDrained s).dropCount = s.dropCount := by rw [countDrained_eq]
@[simp] theorem countDrained_badtag (s : State) : (countDrained s).badtag = s.badtag := by rw [countDrained_eq]
@[simp] theorem countDrained_lines (s : State) : (countDrained s).lines = s.lines := by rw [countDrained_eq]
@[simp] theorem countDrained_trace (s : State) : (countDrained s).trace = s.trace := by rw [countDrained_eq]
@[simp] theorem countDrained_cfg (s : State) : (countDrained s).cfg = s.cfg := by rw [countDrained_eq]
@[simp] theorem countDrained_sched (s : State) : (countDrained s).sched = s.sched := by rw [countDrained_eq]
@[simp] theorem countDrained_draws (s : State) : (countDrained s).draws = s.draws := by rw [countDrained_eq]
@[simp] theorem countDrained_drawn (s : State) : (countDrained s).drawn = s.drawn := by rw [countDrained_eq]
@[simp] theorem countDrained_wire (s : State) : (countDrained s).wire = s.wire := by rw [countDrained_eq]
@[simp] theorem countDrained_reads (s : State) : (countDrained s).reads = s.reads := by rw [countDrained_eq]

@[simp] theorem takeDraw_fb (s : State) : (takeDraw s).2.fb = s.fb := by unfold takeDraw; split <;> rfl
@[simp] theorem takeDraw_q (s : State) : (takeDraw s).2.q = s.q := by unfold takeDraw; split <;> rfl
@[simp] theorem takeDraw_blk (s : State) : (takeDraw s).2.blk = s.blk := by unfold takeDraw; split <;> rfl
@[simp] theorem takeDraw_seq (s : State) : (takeDraw s).2.seq = s.seq := by unfold takeDraw; split <;> rfl
@[simp] theorem takeDraw_err (s : State) : (takeDraw s).2.err = s.err := by unfold takeDraw; split <;> rfl
@[simp] theorem takeDraw_drop (s : State) : (takeDraw s).2.drop = s.drop := by unfold takeDraw; split <;> rfl
@[simp] theorem takeDraw_dropCount (s : State) : (takeDraw s).2.dropCount = s.dropCount := by unfold takeDraw; split <;> rfl
@[simp] theorem takeDraw_badtag (s : State) : (takeDraw s).2.badtag = s.badtag := by unfold takeDraw; split <;> rfl
@[simp] theorem takeDraw_lines (s : State) : (takeDraw s).2.lines = s.lines := by unfold takeDraw; split <;> rfl
@[simp] theorem takeDraw_trace (s : State) : (takeDraw s).2.trace = s.trace := by unfold takeDraw; split <;> rfl
@[simp] theorem takeDraw_cfg (s : State) : (takeDraw s).2.cfg = s.cfg := by unfold takeDraw; split <;> rfl
@[simp] theorem takeDraw_sched (s : State) : (takeDraw s).2.sched = s.sched := by unfold takeDraw; split <;> rfl
@[simp] theorem takeDraw_wire (s : State) : (takeDraw s).2.wire = s.wire := by unfold takeDraw; split <;> rfl
@[simp] theorem takeDraw_reads (s : State) : (takeDraw s).2.reads = s.reads := by unfold takeDraw; split <;> rfl

@[simp] theorem resetLevels_fb (s : State) : (resetLevels s).fb = s.fb := by
  unfold resetLevels; split <;> simp
@[simp] theorem resetLevels_q (s : State) : (resetLevels s).q = s.q := by
  unfold resetLevels; split <;> simp
@[simp] theorem resetLevels_blk (s : State) : (resetLevels s).blk = s.blk := by
  unfold resetLevels; split <;> simp
@[simp] theorem resetLevels_seq (s : State) : (resetLevels s).seq = s.seq := by
  unfold resetLevels; split <;> simp
@[simp] theorem resetLevels_err (s : State) : (resetLevels s).err = s.err := by
  unfold resetLevels; split <;> simp
@[simp] theorem resetLevels_drop (s : State) : (resetLevels s).drop = s.drop := by
  unfold resetLevels; split <;> simp
@[simp] theorem resetLevels_dropCount (s : State) : (resetLevels s).dropCount = s.dropCount := by
  unfold resetLevels; split <;> simp
@[simp] theorem resetLevels_badtag (s : State) : (resetLevels s).badtag = s.badtag := by
  unfold resetLevels; split <;> simp
@[simp] theorem resetLevels_trace (s : State) : (resetLevels s).trace = s.trace := by
  unfold resetLevels; split <;> simp
@[simp] theorem resetLevels_cfg (s : State) : (resetLevels s).cfg = s.cfg := by
  unfold resetLevels; split <;> simp
@[simp] theorem resetLevels_sched (s : State) : (resetLevels s).sched = s.sched := by
  unfold resetLevels; split <;> simp
@[simp] theorem resetLevels_wire (s : State) : (resetLevels s).wire = s.wire := by
  unfold resetLevels; split <;> simp
@[simp] theorem resetLevels_reads (s : State) : (resetLevels s).reads = s.reads := by
  unfold resetLevels; split <;> simp

@[simp] theorem transferred_fb (op : TransportOp) (d : Draw) (s : State) :
    (transferred op d s).fb = s.fb := by unfold transferred; split <;> rfl
@[simp] theorem transferred_q (op : TransportOp) (d : Draw) (s : State) :
    (transferred op d s).q = s.q := by unfold transferred; split <;> rfl
@[simp] theorem transferred_blk (op : TransportOp) (d : Draw) (s : State) :
    (transferred op d s).blk = s.blk := by unfold transferred; split <;> rfl
@[simp] theorem transferred_seq (op : TransportOp) (d : Draw) (s : State) :
    (transferred op d s).seq = s.seq := by unfold transferred; split <;> rfl
@[simp] theorem transferred_err (op : TransportOp) (d : Draw) (s : State) :
    (transferred op d s).err = s.err := by unfold transferred; split <;> rfl
@[simp] theorem transferred_drop (op : TransportOp) (d : Draw) (s : State) :
    (transferred op d s).drop = s.drop := by unfold transferred; split <;> rfl
@[simp] theorem transferred_dropCount (op : TransportOp) (d : Draw) (s : State) :
    (transferred op d s).dropCount = s.dropCount := by unfold transferred; split <;> rfl
@[simp] theorem transferred_badtag (op : TransportOp) (d : Draw) (s : State) :
    (transferred op d s).badtag = s.badtag := by unfold transferred; split <;> rfl
@[simp] theorem transferred_cfg (op : TransportOp) (d : Draw) (s : State) :
    (transferred op d s).cfg = s.cfg := by unfold transferred; split <;> rfl
@[simp] theorem transferred_sched (op : TransportOp) (d : Draw) (s : State) :
    (transferred op d s).sched = s.sched := by unfold transferred; split <;> rfl
@[simp] theorem transferred_draws (op : TransportOp) (d : Draw) (s : State) :
    (transferred op d s).draws = s.draws := by unfold transferred; split <;> rfl
@[simp] theorem transferred_drawn (op : TransportOp) (d : Draw) (s : State) :
    (transferred op d s).drawn = s.drawn := by unfold transferred; split <;> rfl
@[simp] theorem transferred_reads (op : TransportOp) (d : Draw) (s : State) :
    (transferred op d s).reads = s.reads := by unfold transferred; split <;> rfl

end Sys2Proof.Machine
end

