-- ==== Sys2Proof/Laws/Steps.lean ====
section
/-! SUPPORT. What each kind of step can do, said once: transfers, the sequencer's turn, the producers' steps, the resets. -/

namespace Sys2Proof.Machine

theorem transferred_of_ok {op : TransportOp} {d : Draw} {s : State} (h : failureOf s.cfg.transport op d = none) :
    transferred op d s =
      { s with
        trace := s.trace ++ [op.event]
        wire := s.wire ++ subOps s.cfg.transport op
        lines := linesAfter s.cfg.transport op d s.lines } := by
  unfold transferred; rw [h]

theorem transferred_of_failure {op : TransportOp} {d : Draw} {s : State} {e : ErrKind}
    (h : failureOf s.cfg.transport op d = some e) :
    transferred op d s =
      { s with
        trace := s.trace ++ [.fail e]
        wire := s.wire ++ (subOps s.cfg.transport op).take (d.failAt.getD 0)
        lines := d.lines } := by
  unfold transferred; rw [h]

/-- A transfer without a failure moves the sequencer on (42_sequencer R123 to R125). -/
theorem transferStep_of_ok {op : TransportOp} {pos : Seq} {s : State}
    (h : failureOf s.cfg.transport op (takeDraw s).1 = none) :
    transferStep op pos s =
      { s with
        seq := pos
        trace := s.trace ++ [op.event]
        wire := s.wire ++ subOps s.cfg.transport op
        lines := linesAfter s.cfg.transport op (takeDraw s).1 s.lines
        draws := (takeDraw s).2.draws
        drawn := (takeDraw s).2.drawn } := by
  have h' : failureOf (takeDraw s).2.cfg.transport op (takeDraw s).1 = none := by simpa using h
  unfold transferStep xfer
  rw [h, transferred_of_ok h']
  simp

/-- A transfer that fails halts it (60_exceptions R183). -/
theorem transferStep_of_failure {op : TransportOp} {pos : Seq} {s : State} {e : ErrKind}
    (h : failureOf s.cfg.transport op (takeDraw s).1 = some e) :
    transferStep op pos s =
      { s with
        seq := { s.seq with phase := .halted }
        err := e
        trace := s.trace ++ [.fail e]
        wire := s.wire ++ (subOps s.cfg.transport op).take ((takeDraw s).1.failAt.getD 0)
        lines := (takeDraw s).1.lines
        draws := (takeDraw s).2.draws
        drawn := (takeDraw s).2.drawn } := by
  have h' : failureOf (takeDraw s).2.cfg.transport op (takeDraw s).1 = some e := by simpa using h
  unfold transferStep xfer
  rw [h, transferred_of_failure h']
  simp [raiseHalt]

/-- Where a REFRESH step leads when its transfer does not fail (42_sequencer R123 to R125). -/
def nextPos (s : State) : Seq :=
  match s.seq.sub with
  | .words => posAfterWord s.cfg s.seq
  | .oeOff => posAfterOeOff s.seq
  | .oeOn => posAfterOeOn s.cfg s.seq

theorem refreshStep_eq (s : State) : refreshStep s = transferStep (dueOp s) (nextPos s) s := by
  unfold refreshStep dueOp nextPos wordStep oeOffStep oeOnStep
  cases s.seq.sub <;> rfl

theorem capReached_eq_false {s : State} : capReached s = false ↔ ∀ n, s.cfg.drainCap = some n → s.seq.drained < n := by
  unfold capReached
  cases s.cfg.drainCap with
  | none => simp
  | some n => simp

theorem capReached_eq_true {s : State} : capReached s = true ↔ ∃ n, s.cfg.drainCap = some n ∧ n ≤ s.seq.drained := by
  unfold capReached
  cases s.cfg.drainCap with
  | none => simp
  | some n => simp

/-- Everything one turn of the sequencer can do (42_sequencer R120 to R127). -/
theorem sequencerStep_cases {s t : State} (h : sequencerStep s = .next t) :
    (s.seq.phase = .drain ∧ (s.q = [] ∨ capReached s = true) ∧ t = startPass s) ∨
    (∃ m rest u, s.seq.phase = .drain ∧ s.q = m :: rest ∧ capReached s = false ∧
      exec (decode m) { s with q := rest } = .next u ∧ t = countDrained u) ∨
    (s.seq.phase = .refresh ∧ t = transferStep (dueOp s) (nextPos s) s) ∨
    (s.seq.phase = .yield ∧ t = yieldStep s) := by
  unfold sequencerStep at h
  cases hp : s.seq.phase with
  | drain =>
    simp only [hp, drainPhaseStep] at h
    cases hq : s.q with
    | nil =>
      rw [hq] at h
      cases h
      exact .inl ⟨rfl, .inl rfl, rfl⟩
    | cons m rest =>
      simp only [hq] at h
      cases hc : capReached s with
      | true =>
        simp only [hc, if_true] at h
        cases h
        exact .inl ⟨rfl, .inr rfl, rfl⟩
      | false =>
        simp only [hc, Bool.false_eq_true, if_false, drainStep] at h
        refine .inr (.inl ⟨m, rest, ?_⟩)
        split at h
        · rename_i u hu
          cases h
          exact ⟨u, rfl, rfl, rfl, hu, rfl⟩
        · cases h
        · cases h
  | refresh =>
    simp only [hp] at h
    cases h
    exact .inr (.inr (.inl ⟨rfl, refreshStep_eq s⟩))
  | yield =>
    simp only [hp] at h
    cases h
    exact .inr (.inr (.inr ⟨rfl, rfl⟩))
  | halted =>
    simp only [hp] at h
    cases h

/-- Everything a non-blocking push can do (43_queue R141). -/
theorem pushNb_cases {s t : State} {p : Nat} {m : MsgWord} (h : pushNb p m s = .next t) :
    portSlot s p = some none ∧
      ((s.q.length < s.cfg.qcap ∧ t = enqueue m s) ∨ (s.cfg.qcap ≤ s.q.length ∧ t = recordDrop s)) := by
  unfold pushNb at h
  split at h
  · cases h
  · cases h
  · rename_i hp
    refine ⟨hp, ?_⟩
    cases h
    split_ifs with hq
    · exact .inl ⟨hq, rfl⟩
    · exact .inr ⟨by omega, rfl⟩

/-- Everything the issue of a blocking push can do (43_queue R142). -/
theorem pushBlk_cases {s t : State} {p : Nat} {m : MsgWord} (h : pushBlk p m s = .next t) :
    portSlot s p = some none ∧ t = setPort s p (some m) := by
  unfold pushBlk at h
  split at h
  · cases h
  · cases h
  · rename_i hp
    cases h
    exact ⟨hp, rfl⟩

/-- Everything the completion of a blocking push can do (43_queue R142). -/
theorem pushDone_cases {s t : State} {p : Nat} (h : pushDone p s = .next t) :
    ∃ m, portSlot s p = some (some m) ∧ s.q.length < s.cfg.qcap ∧ t = setPort (enqueue m s) p none := by
  unfold pushDone at h
  split at h
  · cases h
  · cases h
  · rename_i m hp
    split_ifs at h with hq
    cases h
    exact ⟨m, hp, hq, rfl⟩

theorem portSlot_lt {s : State} {p : Nat} {v : Option MsgWord} (h : portSlot s p = some v) :
    p ≠ 0 ∧ p - 1 < s.blk.length := by
  unfold portSlot at h
  split_ifs at h with hp
  exact ⟨hp, (List.getElem?_eq_some_iff.1 h).1⟩

theorem portSlot_setPort_self {s : State} {p : Nat} {v w : Option MsgWord} (h : portSlot s p = some w) :
    portSlot (setPort s p v) p = some v := by
  obtain ⟨h0, hlt⟩ := portSlot_lt h
  simp [portSlot, h0, hlt]

theorem portSlot_setPort_ne {s : State} {p p' : Nat} {v : Option MsgWord} (hp : p ≠ 0) (h : p' ≠ p) :
    portSlot (setPort s p v) p' = portSlot s p' := by
  unfold portSlot
  split_ifs with h0
  · rfl
  · rw [setPort_blk, List.getElem?_set_ne (by omega)]

/-- The lines RESET and RESTART leave (10_state R28). -/
theorem resetLevels_lines (s : State) :
    (resetLevels s).lines.latch = false ∧ (resetLevels s).lines.oeEn = false ∧
      (s.cfg.transport = .bitbang → (resetLevels s).lines.data = false ∧ (resetLevels s).lines.clk = false) := by
  unfold resetLevels resetLines
  split <;> rename_i h
  · simp
  · simp [h]

/-- One step more of a run whose first step answers a next state. -/
theorem run_succ (M : Host.Core) (n : Nat) (s t : M.State) (h : M.step s = .next t) : M.run (n + 1) s = M.run n t := by
  show (match M.step s with
    | .next s' => M.run n s'
    | .fault r => .fault r
    | .refused r => .refused r) = M.run n t
  rw [h]

/-- The machine's run, one step at a time. -/
theorem core_run_succ {n : Nat} {s t : State} (h : step s = .next t) :
    Sys2Proof.core.run (n + 1) s = Sys2Proof.core.run n t := run_succ Sys2Proof.core n s t h

/-- A run that answers a next state took a first step that did. -/
theorem run_succ_inv (M : Host.Core) (n : Nat) (s t : M.State) (h : M.run (n + 1) s = .next t) :
    ∃ u, M.step s = .next u ∧ M.run n u = .next t := by
  change (match M.step s with
    | .next s' => M.run n s'
    | .fault r => .fault r
    | .refused r => .refused r) = .next t at h
  split at h
  · exact ⟨_, by assumption, h⟩
  · cases h
  · cases h

theorem core_run_succ_inv {n : Nat} {s t : State} (h : Sys2Proof.core.run (n + 1) s = .next t) :
    ∃ u, step s = .next u ∧ Sys2Proof.core.run n u = .next t := run_succ_inv Sys2Proof.core n s t h

/-- The lines after a word that did not fail: the latch pulse is over, oe_en is kept, and under BITBANG the clock is low. -/
theorem linesAfter_word (tr : Transport) (w : Word) (d : Draw) (l : Lines) :
    (linesAfter tr (.word w) d l).latch = false ∧ (linesAfter tr (.word w) d l).oeEn = l.oeEn ∧
      (tr = .bitbang → (linesAfter tr (.word w) d l).clk = false) := by
  cases tr <;>
    simp [linesAfter, subOps, bitbangWord, spiWord, latchPulse, wordBits, List.range, List.range.loop, bitbangBit,
      Sys2Proof.Machine.Lines.after]

/-- The lines after OeOff or OeOn that did not fail: under SPI data and clk are the draw's (log 6). -/
theorem linesAfter_oe (tr : Transport) (d : Draw) (l : Lines) :
    linesAfter tr .oeOff d l =
      (match tr with
        | .bitbang => { l with oeEn := false }
        | .spi => { l with oeEn := false, data := d.lines.data, clk := d.lines.clk }) ∧
    linesAfter tr .oeOn d l =
      (match tr with
        | .bitbang => { l with oeEn := true }
        | .spi => { l with oeEn := true, data := d.lines.data, clk := d.lines.clk }) := by
  cases tr <;> exact ⟨rfl, rfl⟩

/-- A schedule of n + 1 steps is the first and the n after it. -/
theorem scheduleOf_succ (act : Nat → Action) (n : Nat) :
    scheduleOf act (n + 1) = act 0 :: scheduleOf (fun k => act (k + 1)) n := by
  unfold scheduleOf
  rw [List.range_succ_eq_map]
  simp [Function.comp_def]

end Sys2Proof.Machine
end

