-- ==== Sys2Proof/Tests/Slice0.lean ====
section
/-! SUPPORT. The model's own tests (expected values from 30_encoding R69, 40_framebuffer R80 and 95_test_vectors, named beside
each) and, for every statement with hypotheses, a concrete state and operands that meet them. -/

namespace Sys2Proof.Tests
open Sys2Proof Sys2Proof.Machine

/-! ### Helpers -/

def fbOf : Result → Option Memory
  | .next t => some t.fb
  | .fault _ => none
  | .refused _ => none

def statusOf : Result → Option (BitVec 16 × BitVec 16)
  | .next t => some (statusWord t, seqposWord t)
  | .fault _ => none
  | .refused _ => none

def queueOf : Result → Option (List MsgWord × List (Option MsgWord) × Bool × BitVec 16)
  | .next t => some (t.q, t.blk, t.drop, t.dropCount)
  | .fault _ => none
  | .refused _ => none

def traceOf : Result → Option (List TransportEvent)
  | .next t => some t.trace
  | .fault _ => none
  | .refused _ => none

def linesOf : Result → Option Lines
  | .next t => some t.lines
  | .fault _ => none
  | .refused _ => none

/-- A small state in configuration `c`. -/
def small (c : Config) (fb : Memory) (q : List MsgWord) (pos : Seq) (draws : List Draw) : State where
  fb := fb
  q := q
  blk := List.replicate c.nprod none
  seq := pos
  err := .none
  drop := false
  dropCount := 0#16
  badtag := false
  lines := ⟨false, false, false, false⟩
  trace := []
  cfg := c
  sched := []
  draws := draws
  drawn := 7
  wire := []
  reads := []

def okDraw : Draw := ⟨none, ⟨true, false, true, false⟩⟩

def failDraw (n : Nat) : Draw := ⟨some n, ⟨true, true, true, true⟩⟩

def drainPos : Seq := ⟨.drain, 0, 0, .words, 0⟩

/-- The same word in the listed planes of configuration S. -/
def inPlanes (w : Word) (planes : List Nat) : Memory := planes.map (fun k => (k, w))

def planesOf15 : List Nat := [0, 2, 3, 4, 5, 6, 7, 8, 9, 10, 11, 12, 13, 14, 15]

def spiS : Config := { configS with transport := .spi }

/-- A panel of one pixel: bits 1 to 15 of its word are unmapped. -/
def configOne : Config := { configS with w := 1, h := 1, map := mapLinear 1 1 }

/-! ### Well-formedness refuses -/

theorem test_wellFormed_rejects_tag6to7 : (Instr.reservedTag6to7 5#4).wellFormed = false := by decide

theorem test_wellFormed_rejects_tag8toF : (Instr.reservedTag8toF 7#4).wellFormed = false := by decide

theorem test_config_rejects_panel : ¬ Config.PanelOk { configS with w := 256 } ∧ ¬ Config.PanelOk { configS with h := 0 } := by
  decide

theorem test_config_rejects_planeLen :
    ¬ Config.PlaneLenOk { configS with planeLen := 0 } ∧ ¬ Config.PlaneLenOk { configS with planeLen := 2 } := by
  decide

theorem test_config_rejects_nplanes :
    ¬ Config.NplanesOk { configS with nplanes := 0 } ∧ ¬ Config.NplanesOk { configS with nplanes := 17 } := by
  decide

theorem test_config_rejects_map_length : ¬ Config.MapOk { configS with map := mapLinear 4 3 } := by decide +kernel

theorem test_config_rejects_map_range : ¬ Config.MapOk { configOne with map := [⟨0, 16⟩] } ∧
    ¬ Config.MapOk { configOne with map := [⟨1, 0⟩] } := by decide

theorem test_config_rejects_map_collision :
    ¬ Config.MapOk { configS with w := 2, h := 1, map := [⟨0, 3⟩, ⟨0, 3⟩] } := by decide

theorem test_config_rejects_grayLut_count :
    ¬ Config.GrayLutOk { configS with grayLut := lutDefault.set 9 0x5555#16 } := by decide +kernel

theorem test_config_rejects_grayLut_length : ¬ Config.GrayLutOk { configS with grayLut := lutDefault ++ [0xFFFF#16] } := by
  decide +kernel

theorem test_config_rejects_qcap :
    ¬ Config.QcapOk { configS with qcap := 0 } ∧ ¬ Config.QcapOk { configS with qcap := 65536 } := by decide

theorem test_config_rejects_drainCap : ¬ Config.DrainCapOk { configS with drainCap := some 0 } := by decide

theorem test_config_rejects_nprod : ¬ Config.NprodOk { configS with nprod := 0 } := by decide

/-! ### Encoding (30_encoding R61 to R69, 95_test_vectors 2.1) -/

/-- Bits from 39 down: Y1, X1, Y0, X0, VAL, TAG. SetPixel(x=0xA5, y=0x3C, gray=9). -/
theorem test_decode_setPixel :
    decode 0b00000000_00000000_00111100_10100101_1001_0001#40 = .setPixel 0xA5#8 0x3C#8 9#4 := by decide

/-- FillPixels(x0=0x11, y0=0x22, x1=0x44, y1=0x88, gray=0xE). -/
theorem test_decode_fillPixels :
    decode 0b10001000_01000100_00100010_00010001_1110_0010#40 = .fillPixels 0x11#8 0x22#8 0x44#8 0x88#8 0xE#4 := by decide

/-- V-ENC4. -/
theorem test_decode_clear : decode 0x3456789AB3#40 = .clear := by decide

/-- V-ENC7, and the same with every ignored bit set. -/
theorem test_decode_setBrightness :
    decode 0x00000000F4#40 = .setBrightness 15#4 ∧ decode 0xFFFFFFFFF4#40 = .setBrightness 15#4 := by decide

theorem test_decode_fullfill : decode 0b00000000_00000000_00000000_00000000_1010_0101#40 = .fullfill 10#4 := by decide

/-- V-ENC5, V-ENC6, and the tags beside them. -/
theorem test_decode_reserved :
    decode 0x0000000000#40 = .reservedTag0 ∧ decode 0x0000000006#40 = .reservedTag6to7 6#4 ∧
    decode 0x0000000007#40 = .reservedTag6to7 7#4 ∧ decode 0x0000000008#40 = .reservedTag8toF 8#4 ∧
    decode 0xFFFFFFFFFF#40 = .reservedTag8toF 15#4 := by decide

/-- V-ENC4: a value wider than 40 bits is not a message word. -/
theorem test_decode_rejects_wide : decodeNat 0x123456789F3 = .error .widerThan40Bits ∧ decodeNat 0x10000000000 =
    .error .widerThan40Bits ∧ decodeTableWord 40 0xFFFFFFFFFF = some (.reservedTag8toF 15#4) := by
  refine ⟨rfl, rfl, by decide⟩

/-- V-ENC2, V-ENC3. -/
theorem test_encode_fillPixels : encode (.fillPixels 1#8 1#8 3#8 4#8 7#4) = 0x0403010172#40 ∧
    encode (decode 0xAABB000181#40) = 0x0000000181#40 := by decide

/-- V-ENC8 and V-ENC9. -/
theorem test_fillRect_text :
    (parseLine "FillRect(250,250,10,10,1)".toList).bind assembleLine = some 0xFFFFFAFA12#40 ∧
    (parseLine "FillRect(1,0x1,2,3,7)".toList).bind assembleLine = some 0x0403010172#40 := by decide +kernel

/-- V-ENC10 and V-ENC11. -/
theorem test_assembler_refuses :
    (parseLine "SetPixel(0,0,16)".toList).bind assembleLine = none ∧
    (parseLine "SetPixel(256,0,1)".toList).bind assembleLine = none ∧
    (parseLine "SetPixel(255,0,15)".toList).bind assembleLine = some 0x00000FFF1#40 ∧
    (parseLine "Clear".toList).bind assembleLine = some 3#40 ∧
    parseLine "Clear()".toList = none := by decide +kernel

/-- The words of P4 pushed by producer 1, and the first two of P6 with blocking pushes. -/
theorem test_push_program :
    (assembleProgram [.setPixel 0 0 1, .setPixel 1 0 2]).map (pushProgram 1) =
      some [.pushNb 1 0x0000000011#40, .pushNb 1 0x0000000121#40] ∧
    (assembleProgram [.setPixel 1 1 0, .setPixel 1 1 1]).map (pushProgramBlocking 1) =
      some [.pushBlk 1 0x0000010101#40, .pushDone 1, .pushBlk 1 0x0000010111#40, .pushDone 1] ∧
    assembleProgram [.clear, .setPixel 0 0 16] = none := by decide +kernel

/-! ### Messages (95_test_vectors 1, 2.3; P3) -/

/-- V-SRC4: configuration L, SetPixel(2,3,8). -/
theorem test_setPixel_L : fbOf (exec (.setPixel 2#8 3#8 8#4) (small configL [] [] drainPos [])) =
    some ([4, 54, 104, 154, 204, 254, 304, 354].map (fun j => (j, 0x2000#16))) := by decide +kernel

/-- V-MSG15, last message, and V-SRC3. -/
theorem test_setPixel_S1 :
    fbOf (exec (.setPixel 2#8 0#8 15#4) (small configS1 [(0, 1#16)] [] drainPos [])) = some [(0, 5#16)] ∧
    fbOf (exec (.setPixel 4#8 0#8 15#4) (small configS [] [] drainPos [])) = some [] := by decide +kernel

/-- V-MSG2. -/
theorem test_fillPixels : fbOf (exec (.fillPixels 1#8 1#8 3#8 4#8 7#4) (small configS [] [] drainPos [])) =
    some (inPlanes 0x6660#16 [0, 3, 5, 7, 10, 12, 14]) := by decide +kernel

/-- V-MSG4 and V-MSG3. -/
theorem test_fillPixels_clips :
    fbOf (exec (.fillPixels 2#8 2#8 200#8 200#8 7#4) (small configS [] [] drainPos [])) =
      some (inPlanes 0xCC00#16 [0, 3, 5, 7, 10, 12, 14]) ∧
    fbOf (exec (.fillPixels 3#8 0#8 1#8 2#8 7#4) (small configS [] [] drainPos [])) = some [] := by decide +kernel

/-- V-MSG6. -/
theorem test_clear : fbOf (exec .clear (small configS (inPlanes 0xFFFF#16 planesOf15) [] drainPos [])) = some [] := by
  decide +kernel

/-- V-MSG11. -/
theorem test_setBrightness : fbOf (exec (.setBrightness 7#4)
    (small configS (inPlanes 0xFFFF#16 [0, 2, 4, 6, 8, 10, 12, 14]) [] drainPos [])) =
      some (inPlanes 0xFFFF#16 [0, 6, 11]) := by decide +kernel

/-- V-MSG17: with one resident plane every lit pixel reads gray 1. -/
theorem test_setBrightness_S1 :
    fbOf (exec (.setBrightness 7#4) (small configS1 [(0, 0xFFFF#16)] [] drainPos [])) = some [] := by decide +kernel

/-- V-MSG7 and V-MSG12. -/
theorem test_fullfill :
    fbOf (exec (.fullfill 15#4) (small configS [(1, 9#16)] [] drainPos [])) = some (inPlanes 0xFFFF#16 planesOf15) ∧
    fbOf (exec (.fullfill 4#4) (small configS [] [] drainPos [])) = some (inPlanes 0xFFFF#16 [0, 4, 8, 12]) := by
  decide +kernel

/-- V-MSG14. -/
theorem test_reserved :
    statusOf (exec (decode 7#40) (small configS [] [] drainPos [])) = some (0x0010#16, 0#16) ∧
    statusOf (exec (decode 0#40) (small configS [] [] drainPos [])) = some (0x0010#16, 0#16) ∧
    statusOf (exec (decode 0xFF#40) (small configS [] [] drainPos [])) = some (0x0010#16, 0#16) := by decide +kernel

/-- V-FB4, V-FB3 and V-FB2. -/
theorem test_set_pixel : setPixel configS1 0 0 true 5 [] = [] ∧ setPixel configS 1 0 false 0 [(0, 0x00FF#16)] = [(0, 0x00FD#16)] ∧
    setPixel configS 0 0 true 0 [(0, 0x00FF#16)] = [(0, 0x00FF#16)] := by decide +kernel

/-- V-FB11. -/
theorem test_pixel_gray_is_at_most_15 : pixelGray configS (inPlanes 0xFFFF#16 (List.range 16)) 0 0 = 15 := by decide +kernel

/-! ### Sequencer, transport, halt (95_test_vectors 2.4, 2.6, 2.7, 2.9) -/

/-- V-SEQ1 to V-SEQ4, one step each. -/
theorem test_sequencer_status :
    statusOf (step (small configS [] [] drainPos [okDraw])) = some (0x0040#16, 0#16) ∧
    statusOf (step (small configS [] [] ⟨.refresh, 0, 0, .words, 0⟩ [okDraw])) = some (0x0140#16, 0#16) ∧
    statusOf (step (small configS [] [] ⟨.refresh, 0, 0, .oeOff, 0⟩ [okDraw])) = some (0x0240#16, 0#16) ∧
    statusOf (step (small configS [] [] ⟨.refresh, 0, 0, .oeOn, 0⟩ [okDraw])) = some (0x0040#16, 0x0001#16) := by
  decide +kernel

/-- V-SEQ2 to V-SEQ4: the events, and oe_en after OeOn; V-TR1: data at bit 0 and clk and latch low after Word(0x8001). -/
theorem test_sequencer_events :
    traceOf (step (small configS [(0, 0xA#16)] [] ⟨.refresh, 0, 0, .words, 0⟩ [okDraw])) = some [.word 0xA#16] ∧
    traceOf (step (small configS [] [] ⟨.refresh, 0, 0, .oeOff, 0⟩ [okDraw])) = some [.oeOff] ∧
    linesOf (step (small configS [] [] ⟨.refresh, 0, 0, .oeOn, 0⟩ [okDraw])) = some ⟨false, false, false, true⟩ ∧
    linesOf (step (small configS [(0, 0x8001#16)] [] ⟨.refresh, 0, 0, .words, 0⟩ [okDraw])) =
      some ⟨true, false, false, false⟩ := by
  decide +kernel

/-- V-SEQ5, V-SEQ6: the last OeOn leads to YIELD, and YIELD to DRAIN. -/
theorem test_sequencer_yields :
    statusOf (step (small configS [] [] ⟨.refresh, 15, 0, .oeOn, 0⟩ [okDraw])) = some (0x0080#16, 0#16) ∧
    statusOf (step (small configS [] [] ⟨.yield, 0, 0, .words, 0⟩ [okDraw])) = some (0#16, 0#16) := by decide +kernel

/-- V-SEQ10: with DRAIN_CAP = 2 reached and a message queued, the third step starts a pass. -/
theorem test_sequencer_cap :
    statusOf (step (small { configS with drainCap := some 2 } [] [0x0000000211#40] ⟨.drain, 0, 0, .words, 2⟩ [])) =
      some (0x0040#16, 0#16) ∧
    fbOf (step (small { configS with drainCap := some 2 } [] [0x0000000211#40] ⟨.drain, 0, 0, .words, 1⟩ [])) =
      some [(0, 4#16)] := by decide +kernel

/-- V-HALT1 and V-HALT2: the failing step. -/
theorem test_halt_status :
    statusOf (step (small configS [] [] ⟨.refresh, 2, 0, .oeOff, 0⟩ [failDraw 0])) = some (0x01C3#16, 0x0002#16) ∧
    statusOf (step (small { configL with transport := .spi } [] [] ⟨.refresh, 3, 7, .words, 0⟩ [failDraw 1])) =
      some (0x00C5#16, 0x0073#16) ∧
    traceOf (step (small { configL with transport := .spi } [] [] ⟨.refresh, 3, 7, .words, 0⟩ [failDraw 0])) =
      some [.fail .busError] := by decide +kernel

/-- V-HALT3: no sequencer step is enabled in HALTED. -/
theorem test_halted_is_stuck :
    step (small configS [] [3#40] ⟨.halted, 2, 0, .oeOff, 0⟩ []) = .fault .sequencerHalted := rfl

/-- V-TR1. -/
theorem test_bitbang_word : subOps .bitbang (.word 0x8001#16) =
    [.pin .data true, .pin .clk true, .pin .clk false]
    ++ (List.replicate 14 [WireOp.pin .data false, .pin .clk true, .pin .clk false]).flatten
    ++ [.pin .data true, .pin .clk true, .pin .clk false, .pin .latch true, .pin .latch false] := by decide +kernel

/-- V-TR4. -/
theorem test_spi_word : subOps .spi (.word 0xA5C3#16) =
    [.spiWrite 0xA5#8, .spiWrite 0xC3#8, .pin .latch true, .pin .latch false] := by decide +kernel

/-- V-TR6 and V-TR7: what has happened before the failure. -/
theorem test_transfer_failure :
    (transferred (.word 0x8001#16) (failDraw 4) (small configS [] [] drainPos [])).wire =
      [.pin .data true, .pin .clk true, .pin .clk false, .pin .data false] ∧
    (transferred (.word 0x8001#16) (failDraw 1) (small spiS [] [] drainPos [])).wire = [.spiWrite 0x80#8] ∧
    (transferred (.word 0x8001#16) (failDraw 1) (small spiS [] [] drainPos [])).trace = [.fail .busError] ∧
    (transferred (.word 0x8001#16) (failDraw 2) (small spiS [] [] drainPos [])).trace = [.fail .pinError] := by
  decide +kernel

/-- V-TR5. -/
theorem test_oe_pin :
    oePin { small { configS with oeActiveLow := true } [] [] drainPos [] with lines := ⟨false, false, false, false⟩ } = true ∧
    oePin { small configS [] [] drainPos [] with lines := ⟨false, false, false, true⟩ } = true := by decide

/-- 10_state R28: under SPI data and clk take the draw's levels after OeOn too, and oe_en is driven as in BITBANG. -/
theorem test_spi_lines : linesOf (step (small spiS [] [] ⟨.refresh, 0, 0, .oeOn, 0⟩ [⟨none, ⟨true, true, true, false⟩⟩])) =
    some ⟨true, true, false, true⟩ := by decide +kernel

/-- V-SR2. -/
theorem test_status_registers :
    statusReg (small configS [] [] ⟨.refresh, 5, 0, .words, 0⟩ []) 0 = 0x0040#16 ∧
    statusReg (small configS [] [] ⟨.refresh, 5, 0, .words, 0⟩ []) 3 = 0x0005#16 ∧
    statusReg (small configL [] [] ⟨.refresh, 15, 24, .words, 0⟩ []) 3 = 0x018F#16 ∧
    statusReg (small configS [] [3#40, 3#40] drainPos []) 1 = 2#16 ∧
    statusReg (small configS [] [3#40] drainPos []) 4 = 0#16 := by decide

/-! ### Queue and reset (95_test_vectors 2.5, 2.8) -/

def q2 : Config := { configS with qcap := 2 }

def fullQ : State := small q2 [] [0x0000000011#40, 0x0000000121#40] drainPos []

/-- V-Q2 (P4) and V-Q3. -/
theorem test_push_nb_drops :
    queueOf (agentStep (.pushNb 1 0x0000000231#40) fullQ) =
      some ([0x0000000011#40, 0x0000000121#40], [none, none], true, 1#16) ∧
    queueOf (agentStep (.pushNb 1 0x0000000231#40) { fullQ with drop := true, dropCount := 0xFFFF#16 }) =
      some ([0x0000000011#40, 0x0000000121#40], [none, none], true, 0xFFFF#16) := by decide +kernel

/-- V-Q4: the port holds the message; completion waits for room. -/
theorem test_push_blk_waits :
    queueOf (agentStep (.pushBlk 1 3#40) fullQ) =
      some ([0x0000000011#40, 0x0000000121#40], [some 3#40, none], false, 0#16) ∧
    agentStep (.pushDone 1) { fullQ with blk := [some 3#40, none] } = .refused .queueFull := by
  refine ⟨by decide +kernel, rfl⟩

/-- V-Q5: after the pop, the held message goes to the tail. -/
theorem test_push_done :
    queueOf (agentStep (.pushDone 1) { fullQ with q := [0x0000000121#40], blk := [some 3#40, none] }) =
      some ([0x0000000121#40, 3#40], [none, none], false, 0#16) := by decide +kernel

/-- The halted state after V-HALT3, with a smaller queue. -/
def haltedState : State :=
  { small q2 (inPlanes 0xFFFF#16 planesOf15) [3#40, 3#40] ⟨.halted, 2, 0, .oeOff, 0⟩ [] with
    blk := [some 0x00000000F1#40, none]
    err := .pinError
    drop := true
    dropCount := 1#16
    trace := [.word 0#16, .fail .pinError] }

/-- V-RST1. -/
theorem test_restart :
    queueOf (agentStep .restart haltedState) = some ([3#40, 3#40], [some 0x00000000F1#40, none], true, 1#16) ∧
    statusOf (agentStep .restart haltedState) = some (0x0020#16, 0#16) ∧
    fbOf (agentStep .restart haltedState) = some [] := by decide +kernel

/-- V-RST2 and V-RST3. -/
theorem test_reset :
    queueOf (agentStep .reset haltedState) = some ([], [none, none], false, 0#16) ∧
    statusOf (agentStep .resetAndRestart haltedState) = some (0#16, 0#16) ∧
    traceOf (agentStep .reset haltedState) = some [.word 0#16, .fail .pinError] := by decide +kernel

/-- V-RST4: a message pushed before the sequencer's first step is applied by it. -/
theorem test_first_step_drains :
    fbOf (step { State.reset with q := [0x0000000015#40] }) = some [(0, 0xFFFF#16)] := by decide +kernel

/-! ### Witnesses: a state and operands that meet all hypotheses of a statement together

The states are not the reset state: FB holds one pixel of gray 8, and the queue and the ports are in use. -/

/-- Configuration S with pixel (1,0) at gray 8 (V-MSG1). -/
def fbDemo : Memory := inPlanes 0x0002#16 [0, 2, 4, 6, 8, 10, 12, 14]

def demo (pos : Seq) (draws : List Draw) : State := small configS fbDemo [0x0000000181#40, 3#40] pos draws

theorem configS_wellFormed : configS.WellFormed := by decide +kernel

theorem configOne_wellFormed : configOne.WellFormed := by decide +kernel

theorem spiS_wellFormed : spiS.WellFormed := by decide +kernel

theorem drain_inv (c : Config) (fb : Memory) (q : List MsgWord) (draws : List Draw) (n : Nat) (hc : c.WellFormed) (hw : fb.wf)
    (hl : fb.within (fbLen c)) (hq : q.length ≤ c.qcap) (hn : drainedInRange c ⟨.drain, 0, 0, .words, n⟩) :
    (small c fb q ⟨.drain, 0, 0, .words, n⟩ draws).Inv where
  cfgOk := hc
  fbWf := hw
  fbWithin := hl
  queue := hq
  ports := List.length_replicate
  position :=
    { plane := hc.2.2.1.1
      word := hc.2.1.1
      strobe := fun _ => rfl
      atRest := fun _ => ⟨rfl, rfl, rfl⟩
      drained0 := fun h => absurd rfl h
      drained := hn }
  errOk := ⟨by simp [small], Or.inl rfl, by simp [small]⟩
  linesOk := ⟨fun _ => rfl, fun _ _ => rfl, by simp [small], by simp [small]⟩
  dropOk := by simp [small]

theorem small_inv (c : Config) (fb : Memory) (q : List MsgWord) (draws : List Draw) (hc : c.WellFormed) (hw : fb.wf)
    (hl : fb.within (fbLen c)) (hq : q.length ≤ c.qcap) : (small c fb q drainPos draws).Inv :=
  drain_inv c fb q draws 0 hc hw hl hq (by unfold drainedInRange; split <;> simp)

theorem demo_inv (draws : List Draw) : (demo drainPos draws).Inv :=
  small_inv configS fbDemo _ draws configS_wellFormed (by decide +kernel) (by decide +kernel) (by decide)

theorem demo_grays : ∀ x < 4, ∀ y < 4, ∀ k < 16,
    pixelBit configS fbDemo x y k = lut configS (if x = 1 ∧ y = 0 then 8 else 0) k := by decide +kernel

theorem demo_pixelInv (draws : List Draw) : PixelInv (demo drainPos draws) := by
  intro x y h
  refine ⟨if x = 1 ∧ y = 0 then 8 else 0, by split <;> decide, fun k hk => demo_grays x h.1 y h.2 k hk⟩

theorem witness_DecoderIsTotalAndReadsTheFields :
    (0xFFFFFFFFF1#40).toNat % 16 = 1 ∧ (0xFFFFFFFFF2#40).toNat % 16 = 2 ∧ (0x3456789AB3#40).toNat % 16 = 3 ∧
    (0x00000000F4#40).toNat % 16 = 4 ∧ (0x0000000005#40).toNat % 16 = 5 ∧ (0xFFFFFFFFF0#40).toNat % 16 = 0 ∧
    (6#40).toNat % 16 = 6 ∧ (7#40).toNat % 16 = 7 ∧ 8 ≤ (8#40).toNat % 16 ∧ 8 ≤ (0xFFFFFFFFFF#40).toNat % 16 := by decide

theorem witness_DecodeOfEncodeIsTheMessage :
    (Instr.fillPixels 255#8 0#8 1#8 128#8 15#4).wellFormed = true ∧ (Instr.reservedTag6to7 7#4).wellFormed = true ∧
    (Instr.reservedTag8toF 8#4).wellFormed = true ∧ (Instr.reservedTag8toF 15#4).wellFormed = true := by decide

theorem witness_PseudoInstructionsExpand :
    ((255 : Nat) ≤ 255 ∧ (0 : Nat) ≤ 255) ∧ ((255 : Nat) < 256 ∨ (255 : Nat) < 0) ∧ configS.WellFormed ∧ (15 : Nat) ≤ 15 :=
  ⟨by decide, by decide, configS_wellFormed, by decide⟩

theorem witness_SetPixelWritesItsGrayInEveryPlane :
    tagOf 0x0000000181#40 = 1#4 ∧ (demo drainPos []).Inv ∧ onPanel (demo drainPos []).cfg (3#8).toNat (3#8).toNat ∧
    ¬ onPanel (demo drainPos []).cfg (4#8).toNat (0#8).toNat ∧ 15 < (demo drainPos []).cfg.nplanes ∧
    ∀ k, k < (demo drainPos []).cfg.nplanes →
      ¬ (0 = pixelAddr (demo drainPos []).cfg (3#8).toNat (3#8).toNat k ∧
        14 = (mapAt (demo drainPos []).cfg (3#8).toNat (3#8).toNat).bo) := by
  refine ⟨by decide, demo_inv [], by decide, by decide, by decide, fun k _ h => ?_⟩
  exact absurd h.2 (by decide +kernel)

theorem witness_FillPixelsPaintsTheHalfOpenRectangle :
    tagOf 0x0403010172#40 = 2#4 ∧ (demo drainPos []).Inv ∧ (3#8 ≤ 3#8 ∨ (4#8 : BitVec 8) ≤ 0#8) ∧
    onPanel (demo drainPos []).cfg 3 3 ∧ 15 < (demo drainPos []).cfg.nplanes ∧
    fbLen (demo drainPos []).cfg ≤ 16 ∧
    (small configOne [(3, 0xFFFE#16)] [] drainPos []).Inv ∧ Unmapped configOne 3 15 := by
  refine ⟨by decide, demo_inv [], by decide, by decide, by decide, by decide,
    small_inv configOne _ _ _ configOne_wellFormed (by decide) (by decide) (by decide), ?_⟩
  intro x y h
  have hx : x < 1 := h.1
  have hy : y < 1 := h.2
  have hx0 : x = 0 := by omega
  have hy0 : y = 0 := by omega
  subst hx0
  subst hy0
  decide

theorem witness_ClearZeroesEveryWord : tagOf 0x3456789AB3#40 = 3#4 ∧ (demo drainPos []).Inv := ⟨by decide, demo_inv []⟩

theorem witness_SetBrightnessRescalesEveryPixel :
    tagOf 0x0000000084#40 = 4#4 ∧ (demo drainPos []).Inv ∧ onPanel (demo drainPos []).cfg 1 0 ∧
    15 < (demo drainPos []).cfg.nplanes ∧ fbLen (demo drainPos []).cfg ≤ 16 :=
  ⟨by decide, demo_inv [], by decide, by decide, by decide⟩

theorem witness_FullfillFillsEveryPlaneByWords :
    tagOf 0x0000000045#40 = 5#4 ∧ (demo drainPos []).Inv ∧ 15 < (demo drainPos []).cfg.nplanes ∧
    0 < (demo drainPos []).cfg.planeLen ∧ (0#4 : BitVec 4) = 0#4 ∧ (demo drainPos []).cfg.grayLut = lutDefault ∧
    (15#4 : BitVec 4) = 15#4 :=
  ⟨by decide, demo_inv [], by decide, by decide, rfl, rfl, rfl⟩

theorem witness_ReservedTagsOnlySetBadtag :
    tagOf 0x0000000000#40 = 0#4 ∧ (6#4 : BitVec 4) ≤ tagOf 0x0000000006#40 ∧ (6#4 : BitVec 4) ≤ tagOf 0xFFFFFFFFFF#40 ∧
    (small configS fbDemo [0xFFFFFFFFFF#40, 3#40] drainPos []).seq.phase = .drain ∧
    (small configS fbDemo [0xFFFFFFFFFF#40, 3#40] drainPos []).q = 0xFFFFFFFFFF#40 :: [3#40] ∧
    ∀ n, (small configS fbDemo [0xFFFFFFFFFF#40, 3#40] drainPos []).cfg.drainCap = some n →
      (small configS fbDemo [0xFFFFFFFFFF#40, 3#40] drainPos []).seq.drained < n :=
  ⟨by decide, by decide, by decide, rfl, rfl, fun _ h => nomatch h⟩

theorem witness_OutOfRangeWritesDoNothing :
    (configS.w ≤ 4 ∨ configS.h ≤ 0) ∧ fbLen configS1 ≤ 1 + (mapAt configS1 0 0).wi ∧ configS1.nplanes ≤ 1 := by
  decide

theorem witness_SetPixelReadsBack :
    (demo drainPos []).Inv ∧ (demo drainPos []).cfg.nplanes = 16 ∧ onPanel (demo drainPos []).cfg (3#8).toNat (0#8).toNat :=
  ⟨demo_inv [], rfl, by decide⟩

theorem witness_FullBrightnessChangesNothing :
    (demo drainPos []).Inv ∧ PixelInv (demo drainPos []) ∧ (demo drainPos []).cfg.nplanes = 16 :=
  ⟨demo_inv [], demo_pixelInv [], rfl⟩

/-- The demo state with DRAIN_CAP = 2 and one message applied since the last pass. -/
def demoCap : State := small { configS with drainCap := some 2 } fbDemo [0x0000000181#40] ⟨.drain, 0, 0, .words, 1⟩ []

theorem witness_DrainAppliesTheHeadOfTheQueue :
    demoCap.seq.phase = .drain ∧ demoCap.q = 0x0000000181#40 :: [] ∧
    ∀ n, demoCap.cfg.drainCap = some n → demoCap.seq.drained < n := by
  refine ⟨rfl, rfl, fun n h => ?_⟩
  have h' : n = 2 := (Option.some.inj h).symm
  subst h'
  decide

theorem witness_PassStartsOnEmptyQueueOrReachedCap :
    (small configS fbDemo [] drainPos []).seq.phase = .drain ∧ (small configS fbDemo [] drainPos []).q = [] ∧
    { demoCap with seq := ⟨.drain, 0, 0, .words, 2⟩ }.cfg.drainCap =
      some { demoCap with seq := ⟨.drain, 0, 0, .words, 2⟩ }.seq.drained := ⟨rfl, rfl, rfl⟩

theorem witness_WordStepTransfersAndMovesOn :
    (demo ⟨.refresh, 14, 0, .words, 0⟩ [okDraw]).seq.phase = .refresh ∧
    (demo ⟨.refresh, 14, 0, .words, 0⟩ [okDraw]).seq.sub = .words ∧
    failureOf .bitbang (.word (readWord fbDemo 14)) (takeDraw (demo ⟨.refresh, 14, 0, .words, 0⟩ [okDraw])).1 = none ∧
    failureOf .bitbang (.word (readWord fbDemo 14)) (takeDraw (demo ⟨.refresh, 14, 0, .words, 0⟩ [failDraw 49])).1 =
      some .pinError := ⟨rfl, rfl, rfl, rfl⟩

theorem witness_OeOffStepDisablesTheOutputs :
    (demo ⟨.refresh, 2, 0, .oeOff, 0⟩ [okDraw]).seq.phase = .refresh ∧
    (demo ⟨.refresh, 2, 0, .oeOff, 0⟩ [okDraw]).seq.sub = .oeOff ∧
    failureOf .bitbang .oeOff (takeDraw (demo ⟨.refresh, 2, 0, .oeOff, 0⟩ [okDraw])).1 = none ∧
    failureOf .bitbang .oeOff (takeDraw (demo ⟨.refresh, 2, 0, .oeOff, 0⟩ [failDraw 0])).1 = some .pinError :=
  ⟨rfl, rfl, rfl, rfl⟩

/-- Both outcomes of the last clause: the last plane but one, and the last. -/
theorem witness_OeOnStepEndsThePlane :
    (demo ⟨.refresh, 15, 0, .oeOn, 0⟩ [okDraw]).seq.phase = .refresh ∧
    (demo ⟨.refresh, 15, 0, .oeOn, 0⟩ [okDraw]).seq.sub = .oeOn ∧
    failureOf .bitbang .oeOn (takeDraw (demo ⟨.refresh, 15, 0, .oeOn, 0⟩ [okDraw])).1 = none ∧
    failureOf .bitbang .oeOn (takeDraw (demo ⟨.refresh, 15, 0, .oeOn, 0⟩ [failDraw 0])).1 = some .pinError ∧
    14 + 1 < (demo ⟨.refresh, 14, 0, .oeOn, 0⟩ [okDraw]).cfg.nplanes ∧
    ¬ 15 + 1 < (demo ⟨.refresh, 15, 0, .oeOn, 0⟩ [okDraw]).cfg.nplanes := ⟨rfl, rfl, rfl, rfl, by decide, by decide⟩

theorem witness_YieldReturnsToDrain : (demo ⟨.yield, 0, 0, .words, 0⟩ []).seq.phase = .yield := rfl

/-- The cap of 2 reached with a message still in Q, one resident plane, and exactly the draws of one pass. -/
def capPass : State :=
  { small { configS1 with drainCap := some 2 } [(0, 5#16)] [3#40] ⟨.drain, 0, 0, .words, 2⟩ (List.replicate 3 okDraw) with
    sched := [.sequencer, .pushNb 1 3#40, .sequencer, .statusRead 0, .pushBlk 2 3#40, .sequencer, .sequencer, .restart] }

/-- Both ways a pass starts (Q empty; the cap reached with Q in use), and a run with producer steps and a status read between. -/
theorem witness_RefreshPassEmitsEveryPlaneInOrder :
    ((small configS fbDemo [] drainPos (List.replicate 48 okDraw)).Inv ∧
      (small configS fbDemo [] drainPos (List.replicate 48 okDraw)).seq.phase = .drain ∧
      (small configS fbDemo [] drainPos (List.replicate 48 okDraw)).q = [] ∧
      configS.nplanes * (configS.planeLen + 2) ≤ (List.replicate 48 okDraw).length ∧
      (∀ d ∈ (List.replicate 48 okDraw).take (configS.nplanes * (configS.planeLen + 2)), drawOk d) ∧
      (small configS fbDemo [] drainPos (List.replicate 48 okDraw)).sched = []) ∧
    capPass.Inv ∧ capPass.seq.phase = .drain ∧ capPass.cfg.drainCap = some capPass.seq.drained ∧
      capPass.cfg.nplanes * (capPass.cfg.planeLen + 2) ≤ capPass.draws.length ∧
      (∀ d ∈ capPass.draws.take (capPass.cfg.nplanes * (capPass.cfg.planeLen + 2)), drawOk d) ∧
      capPass.sched = .sequencer ::
        ([.pushNb 1 3#40, .sequencer, .statusRead 0, .pushBlk 2 3#40, .sequencer, .sequencer] ++ [.restart]) ∧
      [Action.pushNb 1 3#40, .sequencer, .statusRead 0, .pushBlk 2 3#40, .sequencer, .sequencer].countP
        (fun a => a = .sequencer) = capPass.cfg.nplanes * (capPass.cfg.planeLen + 2) ∧
      ∃ t, Sys2Proof.core.run (1 + 6) capPass = .next t := by
  refine ⟨⟨small_inv configS _ _ _ configS_wellFormed (by decide +kernel) (by decide +kernel) (by decide), rfl, rfl, by decide,
    by decide +kernel, rfl⟩, ?_, rfl, rfl, by decide, by decide, rfl, by decide, ⟨_, rfl⟩⟩
  have h := drain_inv { configS1 with drainCap := some 2 } [(0, 5#16)] [3#40] (List.replicate 3 okDraw) 2 (by decide +kernel)
    (by decide) (by decide) (by decide) (by unfold drainedInRange; simp)
  exact ⟨h.cfgOk, h.fbWf, h.fbWithin, h.queue, h.ports, h.position, ⟨h.errOk.halted, h.errOk.kind, h.errOk.bus⟩,
    ⟨h.linesOk.latch, h.linesOk.clk, h.linesOk.disabled, h.linesOk.enabled⟩, h.dropOk⟩

theorem witness_GrayIsTheNumberOfPlanesShown :
    (demo drainPos []).Inv ∧ (demo drainPos []).cfg.nplanes = 16 ∧ onPanel (demo drainPos []).cfg 1 0 ∧ 8 < 16 ∧
    PixelHolds (demo drainPos []).cfg (demo drainPos []).fb 1 0 8 :=
  ⟨demo_inv [], rfl, by decide, by decide, fun k hk => demo_grays 1 (by decide) 0 (by decide) k hk⟩

theorem witness_BitbangWordIsFiftyPinWrites : (0 : Nat) < 16 ∧ (15 : Nat) < 16 ∧ (49 : Nat) < 50 ∧
    (failDraw 49).failAt = some 49 ∧ (failDraw 0).failAt = some 0 := by decide

/-- The last byte, the latch's fall, and an index past the last sub-operation. -/
theorem witness_SpiWordIsTwoBytesThenLatch :
    (failDraw 1).failAt = some 1 ∧ (failDraw 3).failAt = some 3 ∧ (failDraw 4).failAt = some 4 := by decide

theorem witness_TransferFailureKinds :
    (failDraw 49).failAt = some 49 ∧ (subOps .bitbang (.word 0x8001#16))[49]? = some (.pin .latch false) := by decide +kernel

/-- The first and the last sub-operation of a bit-banged word, and each of the two bytes of an SPI word. -/
theorem witness_TransferRecordsWhatHappened :
    (xfer (.word 0x8001#16) (demo drainPos [okDraw])).1 = none ∧
    (xfer .oeOn (demo drainPos [failDraw 0])).1 = some .pinError ∧
    ((takeDraw (demo drainPos [failDraw 50])).1.failAt = some 50 ∧
      (subOps (demo drainPos [failDraw 50]).cfg.transport (.word 0x8001#16)).length ≤ 50) ∧
    (takeDraw (demo drainPos [okDraw])).1.failAt = none ∧
    (takeDraw (demo drainPos [failDraw 0])).1.failAt = some 0 ∧
    (subOps (demo drainPos [failDraw 0]).cfg.transport (.word 0x8001#16))[0]? = some (.pin .data true) ∧
    (takeDraw (demo drainPos [failDraw 49])).1.failAt = some 49 ∧
    (subOps (demo drainPos [failDraw 49]).cfg.transport (.word 0x8001#16))[49]? = some (.pin .latch false) ∧
    (takeDraw (small spiS [] [] drainPos [failDraw 1])).1.failAt = some 1 ∧
    (subOps (small spiS [] [] drainPos [failDraw 1]).cfg.transport (.word 0x8001#16))[1]? = some (.spiWrite 1#8) := by
  refine ⟨rfl, rfl, ⟨rfl, by decide +kernel⟩, rfl, rfl, by decide +kernel, rfl, by decide +kernel, rfl, by decide +kernel⟩

theorem witness_OutputEnableIsOnePinWrite :
    (xfer .oeOff (demo drainPos [okDraw])).1 = none ∧ (xfer .oeOn (demo drainPos [okDraw])).1 = none := ⟨rfl, rfl⟩

theorem witness_FailedTransferHaltsTheSequencer :
    (demo ⟨.refresh, 2, 0, .oeOff, 0⟩ [failDraw 0]).seq.phase = .refresh ∧
    failureOf configS.transport (dueOp (demo ⟨.refresh, 2, 0, .oeOff, 0⟩ [failDraw 0]))
      (takeDraw (demo ⟨.refresh, 2, 0, .oeOff, 0⟩ [failDraw 0])).1 = some .pinError ∧
    (small spiS fbDemo [] ⟨.refresh, 1, 0, .words, 0⟩ [failDraw 1]).seq.phase = .refresh ∧
    failureOf spiS.transport (dueOp (small spiS fbDemo [] ⟨.refresh, 1, 0, .words, 0⟩ [failDraw 1]))
      (takeDraw (small spiS fbDemo [] ⟨.refresh, 1, 0, .words, 0⟩ [failDraw 1])).1 = some .busError := ⟨rfl, rfl, rfl, rfl⟩

theorem witness_SequencerStopsExactlyInHalted :
    haltedState.seq.phase = .halted ∧ (demo ⟨.refresh, 2, 0, .words, 0⟩ []).seq.phase ≠ .halted := ⟨rfl, by decide⟩

theorem witness_OnlyResetOrRestartLeavesHalted :
    haltedState.seq.phase = .halted ∧
    ((∃ t, agentStep .restart haltedState = .next t) ∧ isResetOrRestart .restart = true) ∧
    ((∃ t, agentStep (.pushNb 2 3#40) haltedState = .next t) ∧ isResetOrRestart (.pushNb 2 3#40) = false) :=
  ⟨rfl, ⟨⟨_, rfl⟩, rfl⟩, ⟨⟨_, rfl⟩, rfl⟩⟩

/-- Room for one word more, no room, and a held port. -/
theorem witness_NonBlockingPushAppendsOrDrops :
    (portSlot { fullQ with q := [3#40] } 2 = some none ∧ [3#40].length < { fullQ with q := [3#40] }.cfg.qcap) ∧
    (portSlot fullQ 1 = some none ∧ fullQ.cfg.qcap ≤ fullQ.q.length) ∧
    portSlot haltedState 1 = some (some 0x00000000F1#40) := ⟨⟨rfl, by decide⟩, ⟨rfl, by decide⟩, rfl⟩

/-- The full queue with port 1 held, and the same with one word popped. -/
theorem witness_BlockingPushHoldsItsPort :
    portSlot fullQ 2 = some none ∧ (1 : Nat) ≠ 2 ∧
    (portSlot { haltedState with q := [3#40] } 1 = some (some 0x00000000F1#40) ∧
      [3#40].length < { haltedState with q := [3#40] }.cfg.qcap) ∧
    (portSlot haltedState 1 = some (some 0x00000000F1#40) ∧ haltedState.cfg.qcap ≤ haltedState.q.length) ∧
    ∃ t, agentStep .restart haltedState = .next t :=
  ⟨rfl, by decide, ⟨rfl, by decide⟩, ⟨rfl, by decide⟩, ⟨_, rfl⟩⟩

theorem witness_QueueIsFirstInFirstOut :
    (∃ t, agentStep .sequencer (demo drainPos []) = .next t) ∧ (∃ t, agentStep (.pushNb 1 3#40) (demo drainPos []) = .next t) ∧
    (∃ t, agentStep .reset (demo drainPos []) = .next t) ∧ ∃ t, agentStep (.statusRead 1) (demo drainPos []) = .next t :=
  ⟨⟨_, rfl⟩, ⟨_, rfl⟩, ⟨_, rfl⟩, ⟨_, rfl⟩⟩

theorem witness_EachAgentTouchesOnlyItsOwn :
    (isProducer (.pushBlk 2 3#40) = true ∧ actionPort (.pushBlk 2 3#40) ≠ some 1 ∧ ∃ t, agentStep (.pushBlk 2 3#40) (demo drainPos []) = .next t) ∧
    (∃ t, agentStep .sequencer (demo ⟨.refresh, 0, 0, .words, 0⟩ [okDraw]) = .next t) ∧
    ((demo drainPos []).seq.phase = .drain ∧ ∃ t, agentStep .sequencer (demo drainPos []) = .next t) ∧
    (∃ t, agentStep .restart (demo drainPos []) = .next t ∧ t.fb ≠ (demo drainPos []).fb) ∧
    ∃ t, agentStep (.statusRead 0) (demo drainPos []) = .next t :=
  ⟨⟨rfl, by decide, _, rfl⟩, ⟨_, rfl⟩, ⟨rfl, _, rfl⟩, ⟨_, rfl, by decide +kernel⟩, ⟨_, rfl⟩⟩

theorem witness_StatusReadGivesTheRegisters : (demo drainPos []).Inv ∧ (4 : Nat) ≤ 4 := ⟨demo_inv [], by decide⟩

theorem witness_ResetAndRestart : (demo drainPos []).cfg.transport = .bitbang := rfl

theorem witness_ResetStateHasTheResetValues :
    configS.transport = .bitbang ∧ (1 : Nat) ≤ 1 ∧ 2 ≤ configS.nprod := ⟨rfl, by decide, by decide⟩

theorem witness_ConfigurationIsFixedAtBoot :
    configOne.WellFormed ∧ ¬ Config.WellFormed { configS with qcap := 0 } ∧ ∃ t, step (demo drainPos []) = .next t :=
  ⟨configOne_wellFormed, fun h => absurd h.2.2.2.2.2.1 (by decide), ⟨_, rfl⟩⟩

theorem witness_StepIsTheScheduledAgentStep :
    (demo drainPos []).sched = [] ∧
    { demo drainPos [] with sched := [.pushNb 1 3#40, .restart] }.sched = .pushNb 1 3#40 :: [.restart] := ⟨rfl, rfl⟩

theorem witness_StepRunsTheDecodedMessage :
    chosenAction { demoCap with sched := [.sequencer, .reset] } = .sequencer ∧
    { demoCap with sched := [.sequencer, .reset] }.seq.phase = .drain ∧
    { demoCap with sched := [.sequencer, .reset] }.q = 0x0000000181#40 :: [] ∧
    ∀ n, { demoCap with sched := [.sequencer, .reset] }.cfg.drainCap = some n →
      { demoCap with sched := [.sequencer, .reset] }.seq.drained < n :=
  ⟨rfl, rfl, rfl, witness_DrainAppliesTheHeadOfTheQueue.2.2⟩

theorem witness_PlacedWordIsRunNext :
    haltedState.cfg.WellFormed ∧ decodeTableWord 40 0x0000030281 = some (.setPixel 2#8 3#8 8#4) ∧
    decodeTableWord 40 0xFFFFFFFFFF = some (.reservedTag8toF 15#4) := ⟨by decide +kernel, by decide, by decide⟩

theorem witness_EveryStepKeepsTheStateInvariant :
    (demo drainPos []).Inv ∧ PixelInv (demo drainPos []) ∧ ∃ t, step (demo drainPos []) = .next t :=
  ⟨demo_inv [], demo_pixelInv [], ⟨_, rfl⟩⟩

theorem witness_BootedConfiguration : configOne.WellFormed ∧ spiS.WellFormed := ⟨configOne_wellFormed, spiS_wellFormed⟩

/-- A legal configuration with its last port, the list of a pass not being empty. -/
theorem witness_FirstStepAfterResetStartsAPass :
    spiS.WellFormed ∧ 1 ≤ spiS.nprod ∧ spiS.nprod ≤ spiS.nprod ∧ .word 0#16 ∈ passEvents spiS (State.resetWith spiS).fb :=
  ⟨spiS_wellFormed, by decide, by decide, by decide +kernel⟩

theorem witness_OnlyOeOnEnablesTheOutputs :
    (∃ t, agentStep .sequencer (demo ⟨.refresh, 0, 0, .oeOn, 0⟩ [okDraw]) = .next t ∧ t.lines.oeEn = true) ∧
    (demo ⟨.refresh, 0, 0, .oeOn, 0⟩ [okDraw]).lines.oeEn = false := ⟨⟨_, rfl, rfl⟩, rfl⟩

/-- A reachable state that is not a booted one: one step of the sequencer after boot. -/
theorem witness_EveryReachableStateIsLegal :
    Reachable { State.resetWith configS with sched := [], draws := [failDraw 0], seq := ⟨.refresh, 0, 0, .words, 0⟩ } :=
  Reachable.step _ _ (Reachable.boot configS [] [failDraw 0] configS_wellFormed) rfl

/-! ### Two infinite runs that are fair -/

def nextOf : Result → State → State
  | .next t, _ => t
  | .fault _, s => s
  | .refused _, s => s

/-- The states of the first steps: one message is applied, then a pass of one plane and its yield. -/
def passStates : Nat → State
  | 0 => small configS1 [] [3#40] drainPos (List.replicate 3 okDraw)
  | n + 1 => nextOf (agentStep .sequencer (passStates n)) (passStates n)

/-- After the pass a producer pushes Clear before each turn of the sequencer, for ever (V-SEQ11). -/
def floodState (n : Nat) : State :=
  if n < 6 then passStates n else if n % 2 = 0 then passStates 6 else { passStates 6 with q := [3#40] }

def floodAct (n : Nat) : Action := if n < 6 then .sequencer else if n % 2 = 0 then .pushNb 1 3#40 else .sequencer

theorem flood_isRun : IsRun floodState floodAct := by
  intro n
  by_cases h : n < 6
  · interval_cases n <;> rfl
  · have h' : ¬ n + 1 < 6 := by omega
    rcases Nat.mod_two_eq_zero_or_one n with h2 | h2
    · have h3 : (n + 1) % 2 = 1 := by omega
      simp only [floodState, floodAct, h, h', h2, h3, if_false, if_true]
      rfl
    · have h3 : (n + 1) % 2 = 0 := by omega
      simp only [floodState, floodAct, h, h', h2, h3, if_false, if_true]
      rfl

theorem flood_fair : WeaklyFair floodState floodAct := by
  intro n
  refine ⟨2 * n + 7, by omega, .inl ?_⟩
  have h : ¬ 2 * n + 7 < 6 := by omega
  have h2 : (2 * n + 7) % 2 = 1 := by omega
  simp [floodAct, h, h2]

/-- The sequencer starts a pass and the supervisor restarts it, for ever; no producer pushes. -/
def restartState (n : Nat) : State :=
  if n % 2 = 0 then small configS1 [] [] drainPos [] else small configS1 [] [] ⟨.refresh, 0, 0, .words, 0⟩ []

def restartAct (n : Nat) : Action := if n % 2 = 0 then .sequencer else .restart

theorem restart_isRun : IsRun restartState restartAct := by
  intro n
  rcases Nat.mod_two_eq_zero_or_one n with h | h
  · have h' : (n + 1) % 2 = 1 := by omega
    simp only [restartState, restartAct, h, h', if_true]
    rfl
  · have h' : (n + 1) % 2 = 0 := by omega
    simp only [restartState, restartAct, h, h', if_true]
    rfl

theorem restart_fair : WeaklyFair restartState restartAct := fun n =>
  ⟨2 * n, by omega, .inl (by simp [restartAct])⟩

theorem configS1_wellFormed : configS1.WellFormed := by decide +kernel

theorem witness_RunPrefixIsAScheduledRun : IsRun floodState floodAct := flood_isRun

/-- At step 2 of the flood run the pass has started. -/
theorem witness_EveryPassOfAFairRunEnds :
    IsRun floodState floodAct ∧ WeaklyFair floodState floodAct ∧ (floodState 2).Inv ∧ (floodState 2).seq.phase = .refresh := by
  refine ⟨flood_isRun, flood_fair, ?_, rfl⟩
  exact
    { cfgOk := configS1_wellFormed
      fbWf := by decide +kernel
      fbWithin := by decide +kernel
      queue := by decide +kernel
      ports := by decide +kernel
      position := ⟨by decide +kernel, by decide +kernel, fun _ => rfl, fun _ => ⟨rfl, rfl, rfl⟩, fun _ => rfl, rfl⟩
      errOk := ⟨by decide +kernel, .inl rfl, by decide +kernel⟩
      linesOk := ⟨fun _ => rfl, fun _ _ => rfl, by decide +kernel, by decide +kernel⟩
      dropOk := by decide +kernel }

theorem witness_EveryQueuedMessageIsAppliedInAFairRun :
    IsRun floodState floodAct ∧ WeaklyFair floodState floodAct ∧ (floodState 0).Inv ∧ (floodState 0).q = [] ++ 3#40 :: [] :=
  ⟨flood_isRun, flood_fair, small_inv configS1 [] [3#40] _ configS1_wellFormed (by decide) (by decide) (by decide), rfl⟩

theorem witness_APassStartsOnceProducersCease :
    IsRun restartState restartAct ∧ WeaklyFair restartState restartAct ∧ (restartState 0).Inv ∧
    ∀ k, 0 ≤ k → isProducer (restartAct k) = false := by
  refine ⟨restart_isRun, restart_fair, small_inv configS1 [] [] [] configS1_wellFormed (by decide) (by decide) (by decide), ?_⟩
  intro k _
  unfold restartAct
  split <;> rfl

end Sys2Proof.Tests
end

section
/-! The values of the status registers (10_state R30 to R34) and the effect of RESET (10_state R38, 70_reset_and_hazards R200), then
the two obligations of 10_state about them. -/

namespace Sys2Proof.Machine

/-! ### The values of the status registers -/

/-- Concatenation as arithmetic: the left part weighs 2 to the width of the right part. -/
theorem toNat_append_eq_add {v w : Nat} (x : BitVec v) (y : BitVec w) :
    (x ++ y).toNat = x.toNat * 2 ^ w + y.toNat := by
  rw [BitVec.toNat_append, ← Nat.shiftLeft_add_eq_or_of_lt y.isLt, Nat.shiftLeft_eq]

/-- STATUS as the sum of its fields at their weights; bits 15 to 10 add nothing (10_state R30). -/
theorem statusWord_toNat (s : State) :
    (statusWord s).toNat =
      (haltedOut s).toNat + 2 * s.err.code.toNat + 16 * s.badtag.toNat + 32 * s.drop.toNat
        + 64 * s.seq.phase.code.toNat + 256 * s.seq.sub.code.toNat := by
  unfold statusWord
  simp only [toNat_append_eq_add, BitVec.toNat_ofBool, BitVec.toNat_ofNat]
  omega

/-- QCOUNT holds every legal length of Q (10_state R31, 00_scope R12). -/
theorem qcountWord_toNat {s : State} (h : s.q.length ≤ 65535) : (qcountWord s).toNat = s.q.length := by
  rw [qcountWord, BitVec.toNat_ofNat, Nat.mod_eq_of_lt (by omega)]

/-- SEQPOS is `16*i + k` while i fits in 12 bits and k in 4 (10_state R33). -/
theorem seqposWord_toNat {s : State} (hi : s.seq.i < 4096) (hk : s.seq.k < 16) :
    (seqposWord s).toNat = 16 * s.seq.i + s.seq.k := by
  unfold seqposWord
  rw [toNat_append_eq_add, BitVec.toNat_ofNat, BitVec.toNat_ofNat]
  omega

@[simp] theorem statusReg_zero (s : State) : statusReg s 0 = statusWord s := rfl
@[simp] theorem statusReg_one (s : State) : statusReg s 1 = qcountWord s := rfl
@[simp] theorem statusReg_two (s : State) : statusReg s 2 = s.dropCount := rfl
@[simp] theorem statusReg_three (s : State) : statusReg s 3 = seqposWord s := rfl

/-- There is no register past number 3: it reads 0 (10_state R34). -/
theorem statusReg_of_four_le (s : State) {n : Nat} (h : 4 ≤ n) : statusReg s n = 0#16 := by
  obtain ⟨k, rfl⟩ := Nat.exists_eq_add_of_le' h
  rfl

/-- After reset every register reads 0 (10_state R30 to R34, R38). -/
theorem statusReg_resetWith (c : Config) (n : Nat) : statusReg (State.resetWith c) n = 0#16 := by
  match n with
  | 0 => exact BitVec.eq_of_toNat_eq (statusWord_toNat _)
  | 1 => rfl
  | 2 => rfl
  | 3 => exact BitVec.eq_of_toNat_eq (seqposWord_toNat (show 0 < 4096 by decide) (show 0 < 16 by decide))
  | k + 4 => exact statusReg_of_four_le _ (by omega)

/-! ### What the invariant bounds -/

theorem State.Inv.q_length_le {s : State} (h : s.Inv) : s.q.length ≤ 65535 := by
  obtain ⟨-, -, -, -, -, ⟨-, hqcap⟩, -, -⟩ := h.cfgOk
  exact h.queue.trans hqcap

theorem State.Inv.seq_i_lt {s : State} (h : s.Inv) : s.seq.i < 4096 := by
  obtain ⟨-, ⟨-, hlen, -, -⟩, -⟩ := h.cfgOk
  exact h.position.word.trans_le hlen

theorem State.Inv.seq_k_lt {s : State} (h : s.Inv) : s.seq.k < 16 := by
  obtain ⟨-, -, ⟨-, hplanes⟩, -⟩ := h.cfgOk
  exact h.position.plane.trans_le hplanes

/-! ### RESET -/

@[simp] theorem resetBlock_fb (s : State) : (resetBlock s).fb = [] := rfl
@[simp] theorem resetBlock_q (s : State) : (resetBlock s).q = [] := rfl
@[simp] theorem resetBlock_blk (s : State) : (resetBlock s).blk = List.replicate s.cfg.nprod none := rfl
@[simp] theorem resetBlock_seq (s : State) : (resetBlock s).seq = ⟨.drain, 0, 0, .words, 0⟩ := rfl
@[simp] theorem resetBlock_err (s : State) : (resetBlock s).err = .none := rfl
@[simp] theorem resetBlock_drop (s : State) : (resetBlock s).drop = false := rfl
@[simp] theorem resetBlock_dropCount (s : State) : (resetBlock s).dropCount = 0#16 := rfl
@[simp] theorem resetBlock_badtag (s : State) : (resetBlock s).badtag = false := rfl
@[simp] theorem resetBlock_lines (s : State) : (resetBlock s).lines = (resetLevels s).lines := rfl
@[simp] theorem resetBlock_trace (s : State) : (resetBlock s).trace = s.trace := resetLevels_trace s
@[simp] theorem resetBlock_cfg (s : State) : (resetBlock s).cfg = s.cfg := resetLevels_cfg s

/-! ### The obligations -/

/-- Settles O40: the weights by `statusWord_toNat` and, field by field, the code of each value; QCOUNT and SEQPOS do not wrap
because the invariant bounds the queue, i and k. -/
theorem statusReadGivesTheRegisters : Obligations.StatusReadGivesTheRegisters := by
  unfold Obligations.StatusReadGivesTheRegisters
  refine ⟨fun s n h => ⟨rfl, ?_, qcountWord_toNat h.q_length_le, rfl, seqposWord_toNat h.seq_i_lt h.seq_k_lt,
    statusReg_of_four_le s⟩, statusReg_resetWith⟩
  rw [statusReg_zero, statusWord_toNat]
  congr 5
  · unfold haltedOut
    cases s.seq.phase <;> rfl
  · cases s.err <;> rfl
  · cases s.badtag <;> rfl
  · cases s.drop <;> rfl
  · cases s.seq.phase <;> rfl
  · cases s.seq.sub <;> rfl

/-- Settles O41: RESET's effect on each field by the `resetBlock_` lemmas, and `resetLevels_lines` for the lines. RESET together
with RESTART is the same step by definition. -/
theorem resetSetsEveryResetValue : Obligations.ResetSetsEveryResetValue := by
  unfold Obligations.ResetSetsEveryResetValue
  intro s
  refine ⟨rfl, resetBlock s, rfl, fun _ => rfl, ?_⟩
  simpa using resetLevels_lines s

end Sys2Proof.Machine
end

section
/-! PROOFS about the frame buffer's range checks (20_memory R43): the pixel's and the word's. -/

namespace Sys2Proof.Machine

theorem setPixel_off {c : Config} {x y : Nat} (h : ¬ onPanel c x y) (bit : Bool) (off : Nat) (m : Memory) :
    setPixel c x y bit off m = m := if_neg h

theorem setPixel_past_fbLen {c : Config} {x y off : Nat} (h : fbLen c ≤ off + (mapAt c x y).wi) (bit : Bool)
    (m : Memory) : setPixel c x y bit off m = m := by
  unfold setPixel
  rw [if_neg (Nat.not_lt.2 h), ite_self]

/-- A plane that is not resident begins at or past FB_LEN (20_memory R41). -/
theorem fbLen_le_planeOffset {c : Config} {k : Nat} (h : c.nplanes ≤ k) : fbLen c ≤ planeOffset c k :=
  Nat.mul_le_mul_right _ h

/-- Settles O15: off the panel both writes stop at the pixel's range check, and at or past FB_LEN the bit write stops at the
word's. Every word of a plane that is not resident is at or past FB_LEN, whatever word MAP gives the pixel. -/
theorem outOfRangeWritesDoNothing : Obligations.OutOfRangeWritesDoNothing := by
  unfold Obligations.OutOfRangeWritesDoNothing
  intro c m x y
  refine ⟨fun hout => ?_, fun bit off hpast => setPixel_past_fbLen hpast bit m, fun bit k hk => ?_⟩
  · have hoff : ¬ onPanel c x y := fun ⟨hx, hy⟩ => hout.elim (Nat.not_le.2 hx) (Nat.not_le.2 hy)
    exact ⟨fun bit off => setPixel_off hoff bit off m, fun v => setPixelGray_off hoff v m⟩
  · exact setPixel_past_fbLen ((fbLen_le_planeOffset hk).trans (Nat.le_add_right _ _)) bit m

end Sys2Proof.Machine
end

section
/-! PROOFS about the fields a message kind reads (30_encoding R61, R63, R66): a word is its six fields packed, the mask acts on
each field apart, and the decoder and the encoder agree on what the mask keeps. -/

namespace Sys2Proof

open Machine (readMask)

/-! ### The fields of a packed word -/

section
variable (y1 x1 y0 x0 : BitVec 8) (val tag : BitVec 4)

@[simp] theorem tagOf_packMessage : tagOf (packMessage y1 x1 y0 x0 val tag) = tag :=
  (packMessage_fields y1 x1 y0 x0 val tag).1

@[simp] theorem valOf_packMessage : valOf (packMessage y1 x1 y0 x0 val tag) = val :=
  (packMessage_fields y1 x1 y0 x0 val tag).2.1

@[simp] theorem x0Of_packMessage : x0Of (packMessage y1 x1 y0 x0 val tag) = x0 :=
  (packMessage_fields y1 x1 y0 x0 val tag).2.2.1

@[simp] theorem y0Of_packMessage : y0Of (packMessage y1 x1 y0 x0 val tag) = y0 :=
  (packMessage_fields y1 x1 y0 x0 val tag).2.2.2.1

@[simp] theorem x1Of_packMessage : x1Of (packMessage y1 x1 y0 x0 val tag) = x1 :=
  (packMessage_fields y1 x1 y0 x0 val tag).2.2.2.2.1

@[simp] theorem y1Of_packMessage : y1Of (packMessage y1 x1 y0 x0 val tag) = y1 :=
  (packMessage_fields y1 x1 y0 x0 val tag).2.2.2.2.2

end

/-- Every word is its six fields packed: no bit of it lies outside them (30_encoding R61). -/
theorem packMessage_of_fields (m : MsgWord) :
    packMessage (y1Of m) (x1Of m) (y0Of m) (x0Of m) (valOf m) (tagOf m) = m := by
  unfold packMessage y1Of x1Of y0Of x0Of valOf tagOf
  simp +arith (disch := decide) only [BitVec.extractLsb'_append_extractLsb'_eq_extractLsb']
  exact BitVec.extractLsb'_eq_self

/-- A mask acts on each field apart. -/
theorem and_packMessage (m : MsgWord) (y1 x1 y0 x0 : BitVec 8) (val tag : BitVec 4) :
    m &&& packMessage y1 x1 y0 x0 val tag =
      packMessage (y1Of m &&& y1) (x1Of m &&& x1) (y0Of m &&& y0) (x0Of m &&& x0) (valOf m &&& val) (tagOf m &&& tag) := by
  conv_lhs => rw [← packMessage_of_fields m]
  change (_ ++ _ : BitVec (36 + 4)) &&& (_ ++ _ : BitVec (36 + 4)) = _
  simp only [BitVec.and_append]
  rfl

/-! ### The decoder and the encoder -/

/-- The rows of the decoder, selected by the tag alone (30_encoding R66). -/
theorem decode_cases (m : MsgWord) :
    (tagOf m = 1#4 ∧ decode m = .setPixel (x0Of m) (y0Of m) (valOf m)) ∨
    (tagOf m = 2#4 ∧ decode m = .fillPixels (x0Of m) (y0Of m) (x1Of m) (y1Of m) (valOf m)) ∨
    (tagOf m = 3#4 ∧ decode m = .clear) ∨
    (tagOf m = 4#4 ∧ decode m = .setBrightness (valOf m)) ∨
    (tagOf m = 5#4 ∧ decode m = .fullfill (valOf m)) ∨
    (tagOf m = 0#4 ∧ decode m = .reservedTag0) ∨
    ((tagOf m = 6#4 ∨ tagOf m = 7#4) ∧ decode m = .reservedTag6to7 (tagOf m)) ∨
    (8#4 ≤ tagOf m ∧ decode m = .reservedTag8toF (tagOf m)) := by
  unfold decode
  split_ifs
  all_goals simp_all
  bv_omega

theorem decode_tag (m : MsgWord) : (decode m).tag = tagOf m := by
  obtain ⟨h, hd⟩ | ⟨h, hd⟩ | ⟨h, hd⟩ | ⟨h, hd⟩ | ⟨h, hd⟩ | ⟨h, hd⟩ | ⟨-, hd⟩ | ⟨-, hd⟩ := decode_cases m <;>
    simp [Instr.tag, *]

theorem decode_wellFormed (m : MsgWord) : (decode m).wellFormed = true := by
  obtain ⟨-, hd⟩ | ⟨-, hd⟩ | ⟨-, hd⟩ | ⟨-, hd⟩ | ⟨-, hd⟩ | ⟨-, hd⟩ | ⟨h, hd⟩ | ⟨h, hd⟩ := decode_cases m <;>
    simp [Instr.wellFormed, *]

/-- Decoding undoes encoding on a message that fits its row (30_encoding R63, R66). -/
theorem decode_encode {i : Instr} (h : i.wellFormed = true) : decode (encode i) = i := by
  cases i with
  | reservedTag6to7 tag => revert tag; decide
  | reservedTag8toF tag => revert tag; decide
  | _ => simp [encode, decode]

/-! ### The fields a kind reads (30_encoding R63) -/

section
variable {m : MsgWord}

theorem and_readMask_setPixel (h : tagOf m = 1#4) :
    m &&& readMask (tagOf m) = packMessage 0 0 (y0Of m) (x0Of m) (valOf m) (tagOf m) := by
  have hmask : readMask 1#4 = packMessage 0#8 0#8 (.allOnes 8) (.allOnes 8) (.allOnes 4) (.allOnes 4) := rfl
  rw [congrArg readMask h, hmask, and_packMessage]
  simp only [BitVec.and_zero, BitVec.and_allOnes, BitVec.ofNat_eq_ofNat]

theorem and_readMask_fillPixels (h : tagOf m = 2#4) : m &&& readMask (tagOf m) = m := by
  have hmask : readMask 2#4 = .allOnes 40 := rfl
  rw [congrArg readMask h, hmask, BitVec.and_allOnes]

/-- SetBrightness and Fullfill read VAL and the tag. -/
theorem and_readMask_level (h : tagOf m = 4#4 ∨ tagOf m = 5#4) :
    m &&& readMask (tagOf m) = packMessage 0 0 0 0 (valOf m) (tagOf m) := by
  have hmask : readMask (tagOf m) = packMessage 0#8 0#8 0#8 0#8 (.allOnes 4) (.allOnes 4) := by
    obtain h | h := h <;> rw [h] <;> rfl
  rw [hmask, and_packMessage]
  simp only [BitVec.and_zero, BitVec.and_allOnes, BitVec.ofNat_eq_ofNat]

/-- Clear and the reserved kinds read nothing but the tag. -/
theorem and_readMask_tag_only (h : tagOf m = 3#4 ∨ tagOf m = 0#4 ∨ (tagOf m = 6#4 ∨ tagOf m = 7#4) ∨ 8#4 ≤ tagOf m) :
    m &&& readMask (tagOf m) = packMessage 0 0 0 0 0 (tagOf m) := by
  have hmask : readMask (tagOf m) = packMessage 0#8 0#8 0#8 0#8 0#4 (.allOnes 4) := by
    revert h
    generalize tagOf m = t
    revert t
    decide
  rw [hmask, and_packMessage]
  simp only [BitVec.and_zero, BitVec.and_allOnes, BitVec.ofNat_eq_ofNat]

end

/-- Encoding the decoded message keeps the fields its kind reads and zeroes the others (30_encoding R63). -/
theorem encode_decode (m : MsgWord) : encode (decode m) = m &&& readMask (tagOf m) := by
  obtain ⟨h, hd⟩ | ⟨h, hd⟩ | ⟨h, hd⟩ | ⟨h, hd⟩ | ⟨h, hd⟩ | ⟨h, hd⟩ | ⟨h, hd⟩ | ⟨h, hd⟩ := decode_cases m
  · rw [hd, and_readMask_setPixel h, h, encode]
  · rw [hd, and_readMask_fillPixels h, encode, ← h, packMessage_of_fields]
  · rw [hd, and_readMask_tag_only (.inl h), h, encode]
  · rw [hd, and_readMask_level (.inl h), h, encode]
  · rw [hd, and_readMask_level (.inr h), h, encode]
  · rw [hd, and_readMask_tag_only (.inr (.inl h)), h, encode]
  · rw [hd, and_readMask_tag_only (.inr (.inr (.inl h))), encode]
  · rw [hd, and_readMask_tag_only (.inr (.inr (.inr h))), encode]

/-- Settles O4: the masked word is the canonical word of the decoded message (`encode_decode`), so it decodes to that message
(`decode_encode`). -/
theorem ignoredFieldsHaveNoEffect : Obligations.IgnoredFieldsHaveNoEffect := by
  unfold Obligations.IgnoredFieldsHaveNoEffect
  intro m
  refine ⟨?_, decode_tag m, encode_decode m⟩
  rw [← encode_decode, decode_encode (decode_wellFormed m)]

end Sys2Proof
end

section
/-! PROOFS about the gray table (40_framebuffer R80, R81): the bits of a row, and how many ones a window of a row has. The formula
spreads the ones as rounding does: bit k is what floor(((k+1)*v - v)/16) gains over floor((k*v - v)/16), so a window's count is
the difference of two such floors (written with 16 added, to stay in Nat). -/

namespace Sys2Proof.Machine

/-! ### The bits of a row -/

/-- The number whose bits below n are those of p: the sum of powers of two that `lutRow` takes. -/
def bitSum (p : Nat → Bool) (n : Nat) : Nat := (List.range n).foldl (fun acc k => acc + if p k then 2 ^ k else 0) 0

theorem lutRow_eq_bitSum (v : Nat) : lutRow v = BitVec.ofNat 16 (bitSum (lutBit v) 16) := rfl

theorem bitSum_succ (p : Nat → Bool) (n : Nat) : bitSum p (n + 1) = bitSum p n + if p n then 2 ^ n else 0 := by
  simp only [bitSum, List.range_succ, List.foldl_append, List.foldl_cons, List.foldl_nil]

theorem bitSum_lt_two_pow (p : Nat → Bool) (n : Nat) : bitSum p n < 2 ^ n := by
  induction n with
  | zero => exact Nat.one_pos
  | succ n ih =>
    rw [bitSum_succ]
    split <;> omega

theorem testBit_bitSum (p : Nat → Bool) {n k : Nat} (hk : k < n) : (bitSum p n).testBit k = p k := by
  induction n with
  | zero => omega
  | succ n ih =>
    have hlt := bitSum_lt_two_pow p n
    rw [bitSum_succ, Nat.add_comm]
    obtain hk | rfl := Nat.lt_succ_iff_lt_or_eq.mp hk
    · cases hp : p n
      · simp [ih hk]
      · simp [Nat.testBit_two_pow_add_gt hk, ih hk]
    · cases hp : p k
      · simp [Nat.testBit_lt_two_pow hlt]
      · simp [Nat.testBit_two_pow_add_eq, Nat.testBit_lt_two_pow hlt]

/-- Bit k of LUTROW[v] is LUT[v][k] (40_framebuffer R80). -/
theorem getLsbD_lutRow (v : Nat) {k : Nat} (hk : k < 16) : (lutRow v).getLsbD k = lutBit v k := by
  rw [lutRow_eq_bitSum, BitVec.getLsbD_ofNat, testBit_bitSum _ hk, decide_eq_true hk, Bool.true_and]

theorem lutDefault_getD {v : Nat} (hv : v < 16) : lutDefault.getD v 0#16 = lutRow v := by
  simp [lutDefault, hv]

/-! ### The ones in a window (40_framebuffer R81) -/

/-- One position: LUT[v][k] is one step of the rounded multiples of v. -/
theorem lutBit_toNat_add {v : Nat} (hv : v ≤ 16) (k : Nat) :
    (lutBit v k).toNat + (k * v + (16 - v)) / 16 = ((k + 1) * v + (16 - v)) / 16 := by
  rw [Nat.succ_mul]
  unfold lutBit
  by_cases h : k * v % 16 < v <;> simp only [h, decide_true, decide_false, Bool.toNat_true, Bool.toNat_false] <;> omega

/-- The window of n positions from a on: the steps of `lutBit_toNat_add` telescope. -/
theorem countP_lutBit_add {v : Nat} (hv : v ≤ 16) (a n : Nat) :
    (List.range' a n).countP (lutBit v) + (a * v + (16 - v)) / 16 = ((a + n) * v + (16 - v)) / 16 := by
  induction n with
  | zero => simp
  | succ n ih =>
    have hstep := lutBit_toNat_add hv (a + n)
    rw [List.range'_1_concat, List.countP_append, List.countP_singleton, ← Nat.add_assoc a n 1]
    cases h : lutBit v (a + n) <;> simp [h] at hstep ⊢ <;> omega

theorem countP_lutRow {v a n : Nat} (h : a + n ≤ 16) :
    (List.range' a n).countP (fun k => (lutRow v).getLsbD k) = (List.range' a n).countP (lutBit v) := by
  refine List.countP_congr fun k hk => ?_
  rw [List.mem_range'_1] at hk
  rw [getLsbD_lutRow v (by omega)]

/-- R81 (a). -/
theorem popcount_lutRow {v : Nat} (hv : v < 16) : popcount (lutRow v) = v := by
  have hcount := countP_lutBit_add hv.le 0 16
  rw [popcount, List.range_eq_range', countP_lutRow (by omega)]
  omega

/-- R81 (b). -/
theorem countP_lutRow_window {v a n : Nat} (hv : v < 16) (h : a + n ≤ 16) :
    (List.range' a n).countP (fun k => (lutRow v).getLsbD k) = n * v / 16 ∨
    (List.range' a n).countP (fun k => (lutRow v).getLsbD k) = (n * v + 15) / 16 := by
  have hcount := countP_lutBit_add hv.le a n
  rw [Nat.add_mul] at hcount
  rw [countP_lutRow h]
  omega

/-! ### The obligation -/

/-- Settles O7: the formula by `getLsbD_lutRow`, the counts and the spread by the telescoped window count `countP_lutBit_add`; the
sixteen rows are computed. -/
theorem grayTableRowsCountsAndSpread : Obligations.GrayTableRowsCountsAndSpread := by
  unfold Obligations.GrayTableRowsCountsAndSpread
  refine ⟨fun v _ k hk => getLsbD_lutRow v hk, by decide, fun v hv => ⟨lutDefault_getD hv, popcount_lutRow hv⟩, ?_⟩
  intro v hv a _ b hb hab
  exact countP_lutRow_window hv (by omega)

end Sys2Proof.Machine
end

section
/-! PROOFS about the messages (41_messages R100 to R106): which word decodes to which message, what each message answers, and the
frame buffer it leaves, then the six obligations of 41_messages about them. -/

namespace Sys2Proof

/-! ### The message of a tag (30_encoding R64) -/

section
variable {m : MsgWord}

theorem decode_of_tag_one (h : tagOf m = 1#4) : decode m = .setPixel (x0Of m) (y0Of m) (valOf m) := by
  simp [decode, h]

theorem decode_of_tag_two (h : tagOf m = 2#4) :
    decode m = .fillPixels (x0Of m) (y0Of m) (x1Of m) (y1Of m) (valOf m) := by
  simp [decode, h]

theorem decode_of_tag_three (h : tagOf m = 3#4) : decode m = .clear := by
  simp [decode, h]

theorem decode_of_tag_four (h : tagOf m = 4#4) : decode m = .setBrightness (valOf m) := by
  simp [decode, h]

theorem decode_of_tag_five (h : tagOf m = 5#4) : decode m = .fullfill (valOf m) := by
  simp [decode, h]

/-- The reserved tags give the reserved messages, and no other (30_encoding R65). -/
theorem decode_of_tag_reserved (h : tagOf m = 0#4 ∨ 6#4 ≤ tagOf m) :
    decode m = .reservedTag0 ∨ decode m = .reservedTag6to7 (tagOf m) ∨ decode m = .reservedTag8toF (tagOf m) := by
  have hnot (t : BitVec 4) (ht : t ≠ 0#4 ∧ t < 6#4) : tagOf m ≠ t := by
    rintro rfl
    exact h.elim ht.1 (BitVec.not_le.2 ht.2)
  rw [decode, if_neg (hnot 1#4 (by decide)), if_neg (hnot 2#4 (by decide)), if_neg (hnot 3#4 (by decide)),
    if_neg (hnot 4#4 (by decide)), if_neg (hnot 5#4 (by decide))]
  split_ifs
  · exact .inl rfl
  · exact .inr (.inl rfl)
  · exact .inr (.inr rfl)

end

namespace Machine

/-! ### What each message answers -/

theorem exec_setPixel (x y : BitVec 8) (gray : BitVec 4) (s : State) :
    exec (.setPixel x y gray) s = .next { s with fb := setPixelGray s.cfg x.toNat y.toNat gray.toNat s.fb } := rfl

theorem exec_fillPixels (x0 y0 x1 y1 : BitVec 8) (gray : BitVec 4) (s : State) :
    exec (.fillPixels x0 y0 x1 y1 gray) s = .next { s with
      fb := forRange y0.toNat y1.toNat
        (fun y acc => forRange x0.toNat x1.toNat (fun x acc' => setPixelGray s.cfg x y gray.toNat acc') acc) s.fb } :=
  rfl

theorem exec_clear (s : State) : exec .clear s = .next { s with fb := clearAll s.cfg s.fb } := rfl

theorem exec_setBrightness (level : BitVec 4) (s : State) :
    exec (.setBrightness level) s = .next { s with
      fb := forRange 0 s.cfg.h
        (fun y acc => forRange 0 s.cfg.w (fun x acc' => dimPixel s.cfg level.toNat x y acc') acc) s.fb } := rfl

theorem exec_fullfill (level : BitVec 4) (s : State) :
    exec (.fullfill level) s = .next { s with
      fb := forRange 0 s.cfg.nplanes (fun k acc => planeFill s.cfg k (lut s.cfg level.toNat k) acc) s.fb } := rfl

theorem exec_reservedTag0 (s : State) : exec .reservedTag0 s = .next { s with badtag := true } := rfl

theorem exec_reservedTag6to7 (tag : BitVec 4) (s : State) :
    exec (.reservedTag6to7 tag) s = .next { s with badtag := true } := rfl

theorem exec_reservedTag8toF (tag : BitVec 4) (s : State) :
    exec (.reservedTag8toF tag) s = .next { s with badtag := true } := rfl

/-- A word with a reserved tag sets BADTAG, whatever its other fields hold (41_messages R106). -/
theorem exec_decode_reserved {m : MsgWord} (h : tagOf m = 0#4 ∨ 6#4 ≤ tagOf m) (s : State) :
    exec (decode m) s = .next { s with badtag := true } := by
  obtain hd | hd | hd := decode_of_tag_reserved h
  · rw [hd, exec_reservedTag0]
  · rw [hd, exec_reservedTag6to7]
  · rw [hd, exec_reservedTag8toF]

/-- A DRAIN step below the cap answers the popped message's state, counted (42_sequencer R121). -/
theorem sequencerStep_drain {s t : State} {m : MsgWord} {rest : List MsgWord} (hp : s.seq.phase = .drain)
    (hq : s.q = m :: rest) (hc : capReached s = false) (ht : exec (decode m) { s with q := rest } = .next t) :
    sequencerStep s = .next (countDrained t) := by
  simp [sequencerStep, hp, drainPhaseStep, hq, hc, drainStep, ht]

/-! ### The pixel's bits in the frame buffer -/

/-- The plane of a word that exists is resident (20_memory R41). -/
theorem div_planeLen_lt_nplanes {c : Config} {j : Nat} (h : j < fbLen c) : j / c.planeLen < c.nplanes :=
  Nat.div_lt_of_lt_mul (by rwa [fbLen, Nat.mul_comm] at h)

/-- A word at the pixel's index within its plane is the pixel's word in that plane (20_memory R42). -/
theorem pixelAddr_div_planeLen {c : Config} {x y j b : Nat} (h : mapAt c x y = ⟨j % c.planeLen, b⟩) :
    pixelAddr c x y (j / c.planeLen) = j := by
  rw [pixelAddr, h]
  exact Nat.div_add_mod' j c.planeLen

/-- `set_pixel_gray` changes none but the pixel's own bits in the resident planes (40_framebuffer R85). -/
theorem getLsbD_setPixelGray_of_ne {c : Config} (hc : c.WellFormed) {m : Memory} (hm : m.wf) (x y v : Nat) {j b : Nat}
    (h : ∀ k, k < c.nplanes → ¬ (j = pixelAddr c x y k ∧ b = (mapAt c x y).bo)) :
    (readWord (setPixelGray c x y v m) j).getLsbD b = (readWord m j).getLsbD b := by
  rw [getLsbD_setPixelGray hc hm, if_neg]
  rintro ⟨-, hj, hloc⟩
  exact h _ (div_planeLen_lt_nplanes hj) ⟨(pixelAddr_div_planeLen hloc).symm, by rw [hloc]⟩

/-! ### Rectangles -/

/-- FillPixels' frame buffer (41_messages R101). -/
theorem painted_fillPixels {c : Config} (hc : c.WellFormed) {m : Memory} (hm : m.wf) (x0 x1 y0 y1 v : Nat) :
    Painted c m
      (forRange y0 y1 (fun y acc => forRange x0 x1 (fun x acc' => setPixelGray c x y v acc') acc) m)
      (fun px py => (x0 ≤ px ∧ px < x1) ∧ y0 ≤ py ∧ py < y1) (fun _ _ => v) :=
  painted_rect hc hm (gray := fun _ _ _ => v) (fun _ _ _ _ _ => rfl) x0 x1 y0 y1

/-- A rectangle without a column or without a row is a loop that does nothing (00_scope R17). -/
theorem forRange_forRange_empty {x0 x1 y0 y1 : Nat} (h : x1 ≤ x0 ∨ y1 ≤ y0) (body : Nat → Nat → Memory → Memory)
    (m : Memory) : forRange y0 y1 (fun y acc => forRange x0 x1 (body y) acc) m = m := by
  obtain hx | hy := h
  · refine forRange_keeps (P := fun acc => acc = m) rfl fun y acc _ _ hacc => ?_
    rw [forRange_empty hx, hacc]
  · exact forRange_empty hy _ m

/-! ### Gray levels -/

theorem pixelGray_le (c : Config) (m : Memory) (x y : Nat) : pixelGray c m x y ≤ 15 := Nat.min_le_right _ _

/-- A rescaled gray is a gray (41_messages R103). -/
theorem rescaled_le {g level : Nat} (hg : g ≤ 15) (hl : level ≤ 15) : g * level / 15 ≤ 15 :=
  Nat.div_le_of_le_mul (Nat.mul_le_mul hg hl)

/-- Row 0 of a legal gray table has no one (40_framebuffer R81). -/
theorem lut_zero {c : Config} (hc : c.WellFormed) (k : Nat) : lut c 0 k = false := by
  obtain ⟨-, -, -, -, ⟨-, hcount⟩, -⟩ := hc
  by_cases hk : k < 16
  · have hnone := List.countP_eq_zero.1 (hcount 0 (by decide)) k (List.mem_range.2 hk)
    exact Bool.eq_false_iff.2 hnone
  · exact BitVec.getLsbD_of_ge _ k (by omega)

/-- In the spec's gray table the brightest row is dark in plane 1 (40_framebuffer R80). -/
theorem lut_fifteen_one {c : Config} (h : c.grayLut = lutDefault) : lut c 15 1 = false := by
  rw [lut, h, lutDefault_getD (by decide), getLsbD_lutRow 15 (by decide)]
  rfl

/-! ### Whole planes -/

section
variable {c : Config} (hc : c.WellFormed) {m : Memory} (hm : m.wf) (bit : Nat → Bool)
include hc hm

/-- Every word of a resident plane after the fill of every plane (41_messages R104). -/
theorem readWord_planeFills_plane {k i : Nat} (hk : k < c.nplanes) (hi : i < c.planeLen) :
    readWord (forRange 0 c.nplanes (fun k acc => planeFill c k (bit k) acc) m) (planeOffset c k + i) =
      if bit k then 0xFFFF#16 else 0x0000#16 := by
  obtain ⟨-, -, hread⟩ := readWord_planeFills hc hm bit
  have hplane : (planeOffset c k + i) / c.planeLen = k := (index_div_mod hi).1
  rw [hread, if_pos ((pixelAddr_lt_iff hi).2 hk), hplane]

/-- The fill of every plane with 0 is `clear()` (41_messages R104). -/
theorem planeFills_eq_nil (hw : m.within (fbLen c)) (hbit : ∀ k, bit k = false) :
    forRange 0 c.nplanes (fun k acc => planeFill c k (bit k) acc) m = [] := by
  obtain ⟨hwf, -, hread⟩ := readWord_planeFills hc hm bit
  refine memory_ext hwf Memory.nil_wf fun j => ?_
  rw [hread, hbit, if_neg Bool.false_ne_true]
  split_ifs with hj
  · rfl
  · exact readWord_of_within hw (Nat.not_lt.1 hj)

end

/-! ### The obligations -/

/-- Settles O8: `painted_setPixel` gives the pixel's bits, and `getLsbD_setPixelGray_of_ne` keeps every other bit. -/
theorem setPixelWritesItsGrayInEveryPlane : Obligations.SetPixelWritesItsGrayInEveryPlane := by
  unfold Obligations.SetPixelWritesItsGrayInEveryPlane
  refine ⟨fun m h => decode_of_tag_one h, fun s x y gray hs => ?_⟩
  have hp := painted_setPixel hs.cfgOk hs.fbWf x.toNat y.toNat gray.toNat
  refine ⟨_, exec_setPixel x y gray s, rfl, hp.wf, hp.within hs.fbWithin, fun hoff => ?_,
    fun hon => ⟨fun k hk => ?_, fun j b hne => ?_⟩⟩
  · rw [setPixelGray_off hoff]
  · exact hp.inside _ _ k hon hk ⟨rfl, rfl⟩
  · exact getLsbD_setPixelGray_of_ne hs.cfgOk hs.fbWf _ _ _ hne

/-- Settles O9: `painted_fillPixels` gives every pixel's bits, in the rectangle and beside it, and the bits that are no pixel's. -/
theorem fillPixelsPaintsTheHalfOpenRectangle : Obligations.FillPixelsPaintsTheHalfOpenRectangle := by
  unfold Obligations.FillPixelsPaintsTheHalfOpenRectangle
  refine ⟨fun m h => decode_of_tag_two h, fun s x0 y0 x1 y1 gray hs => ?_⟩
  have hp := painted_fillPixels hs.cfgOk hs.fbWf x0.toNat x1.toNat y0.toNat y1.toNat gray.toNat
  refine ⟨_, exec_fillPixels x0 y0 x1 y1 gray s, rfl, hp.wf, hp.within hs.fbWithin, fun hempty => ?_,
    fun x y k hon hk => ?_, hp.others⟩
  · rw [BitVec.le_def, BitVec.le_def] at hempty
    rw [forRange_forRange_empty hempty]
  · split_ifs with hin
    · exact hp.inside x y k hon hk (by omega)
    · exact hp.beside x y k hon hk (by omega)

/-- Settles O10, by `clearAll_eq_nil`: the canonical frame buffer in which every word reads 0x0000 lists no word. -/
theorem clearZeroesEveryWord : Obligations.ClearZeroesEveryWord := by
  unfold Obligations.ClearZeroesEveryWord
  refine ⟨fun m h => decode_of_tag_three h, fun s hs => ⟨?_, fun j => rfl⟩⟩
  rw [exec_clear, clearAll_eq_nil hs.fbWf hs.fbWithin]

/-- Settles O11: in `painted_brightness` the region is the whole panel, and each pixel's gray is read before any is written. -/
theorem setBrightnessRescalesEveryPixel : Obligations.SetBrightnessRescalesEveryPixel := by
  unfold Obligations.SetBrightnessRescalesEveryPixel
  refine ⟨fun m h => decode_of_tag_four h, fun s level hs => ?_⟩
  have hp := painted_brightness hs.cfgOk hs.fbWf level.toNat
  refine ⟨_, exec_setBrightness level s, rfl, hp.wf, hp.within hs.fbWithin,
    fun x y hon => ⟨?_, fun k hk => ?_⟩, hp.others⟩
  · exact rescaled_le (pixelGray_le _ _ _ _) (Nat.le_of_lt_succ level.isLt)
  · exact hp.inside x y k hon hk ⟨⟨Nat.zero_le x, hon.1⟩, Nat.zero_le y, hon.2⟩

/-- Settles O12, by `readWord_planeFills`. Where plane 1 is not resident its words are past FB_LEN, and read 0x0000 too. -/
theorem fullfillFillsEveryPlaneByWords : Obligations.FullfillFillsEveryPlaneByWords := by
  unfold Obligations.FullfillFillsEveryPlaneByWords
  refine ⟨fun m h => decode_of_tag_five h, fun s level hs => ?_⟩
  obtain ⟨hwf, hwithin, -⟩ := readWord_planeFills hs.cfgOk hs.fbWf (lut s.cfg level.toNat)
  have hplane {k i : Nat} := readWord_planeFills_plane hs.cfgOk hs.fbWf (lut s.cfg level.toNat) (k := k) (i := i)
  refine ⟨_, exec_fullfill level s, rfl, hwf, hwithin hs.fbWithin, fun k i => hplane, ?_, ?_⟩
  · rintro rfl
    exact planeFills_eq_nil hs.cfgOk hs.fbWf _ hs.fbWithin (lut_zero hs.cfgOk)
  · rintro hlut rfl i hi
    by_cases hres : 1 < s.cfg.nplanes
    · exact (hplane hres hi).trans (if_neg (Bool.eq_false_iff.1 (lut_fifteen_one hlut)))
    · exact readWord_of_within (hwithin hs.fbWithin)
        ((fbLen_le_planeOffset (Nat.not_lt.1 hres)).trans (Nat.le_add_right _ i))

/-- Settles O13: every reserved word sets BADTAG (`exec_decode_reserved`), and the DRAIN step that pops it counts it. -/
theorem reservedTagsOnlySetBadtag : Obligations.ReservedTagsOnlySetBadtag := by
  unfold Obligations.ReservedTagsOnlySetBadtag
  refine ⟨exec_reservedTag0, fun s tag => exec_reservedTag6to7 tag s, fun s tag => exec_reservedTag8toF tag s,
    fun m s rest htag => ⟨exec_decode_reserved htag s, fun hp hq hcap => ?_⟩⟩
  have hstep := sequencerStep_drain hp hq (capReached_eq_false.2 hcap) (exec_decode_reserved htag _)
  rwa [countDrained_eq] at hstep

end Machine

end Sys2Proof
end

section
/-! PROOFS about the refresh sequencer's own steps (42_sequencer R120 to R126): what a message leaves to the DRAIN step, what each
phase's turn answers, what a transfer changes, then the six obligations of 42_sequencer about them. -/

namespace Sys2Proof.Machine

/-! ### What a message leaves -/

/-- Applying a message completes and writes FB or BADTAG only (41_messages R105). -/
theorem exec_cases (i : Instr) (s : State) :
    (∃ fb, exec i s = .next { s with fb := fb }) ∨ exec i s = .next { s with badtag := true } := by
  cases i with
  | setPixel x y gray => exact .inl ⟨_, exec_setPixel x y gray s⟩
  | fillPixels x0 y0 x1 y1 gray => exact .inl ⟨_, exec_fillPixels x0 y0 x1 y1 gray s⟩
  | clear => exact .inl ⟨_, exec_clear s⟩
  | setBrightness level => exact .inl ⟨_, exec_setBrightness level s⟩
  | fullfill level => exact .inl ⟨_, exec_fullfill level s⟩
  | reservedTag0 => exact .inr (exec_reservedTag0 s)
  | reservedTag6to7 tag => exact .inr (exec_reservedTag6to7 tag s)
  | reservedTag8toF tag => exact .inr (exec_reservedTag8toF tag s)

/-- Applying a message keeps Q, the sequencer's position and the configuration (41_messages R105). -/
theorem exec_keeps_queue_position_cfg (i : Instr) (s : State) :
    ∃ t, exec i s = .next t ∧ t.q = s.q ∧ t.seq = s.seq ∧ t.cfg = s.cfg := by
  obtain ⟨fb, h⟩ | h := exec_cases i s
  · exact ⟨_, h, rfl, rfl, rfl⟩
  · exact ⟨_, h, rfl, rfl, rfl⟩

/-! ### What each phase's turn answers -/

section
variable {s : State}

/-- In DRAIN a pass starts when Q is empty or the cap is reached (42_sequencer R122). -/
theorem sequencerStep_startPass (hp : s.seq.phase = .drain) (h : s.q = [] ∨ capReached s = true) :
    sequencerStep s = .next (startPass s) := by
  rw [sequencerStep, hp]
  cases hq : s.q with
  | nil => simp [drainPhaseStep, hq]
  | cons m rest =>
    have hcap : capReached s = true := h.resolve_left (by simp [hq])
    simp [drainPhaseStep, hq, hcap]

theorem sequencerStep_refresh (hp : s.seq.phase = .refresh) :
    sequencerStep s = .next (transferStep (dueOp s) (nextPos s) s) := by
  rw [sequencerStep, hp, refreshStep_eq]

theorem sequencerStep_yield (hp : s.seq.phase = .yield) : sequencerStep s = .next (yieldStep s) := by
  rw [sequencerStep, hp]

theorem dueOp_words (h : s.seq.sub = .words) :
    dueOp s = .word (readWord s.fb (planeOffset s.cfg s.seq.k + s.seq.i)) := by
  rw [dueOp, h]

theorem dueOp_oeOff (h : s.seq.sub = .oeOff) : dueOp s = .oeOff := by
  rw [dueOp, h]

theorem dueOp_oeOn (h : s.seq.sub = .oeOn) : dueOp s = .oeOn := by
  rw [dueOp, h]

theorem nextPos_words (h : s.seq.sub = .words) : nextPos s = posAfterWord s.cfg s.seq := by
  rw [nextPos, h]

theorem nextPos_oeOff (h : s.seq.sub = .oeOff) : nextPos s = posAfterOeOff s.seq := by
  rw [nextPos, h]

theorem nextPos_oeOn (h : s.seq.sub = .oeOn) : nextPos s = posAfterOeOn s.cfg s.seq := by
  rw [nextPos, h]

/-! ### What a REFRESH step changes -/

/-- Whether its transfer fails or not, a REFRESH step keeps everything but its own fields (42_sequencer R123 to R125). -/
theorem transferStep_frame (op : TransportOp) (pos : Seq) (s : State) : TransferFrame s (transferStep op pos s) := by
  cases h : failureOf s.cfg.transport op (takeDraw s).1 with
  | none => rw [transferStep_of_ok h]; rfl
  | some e => rw [transferStep_of_failure h]; rfl

/-- The turn in REFRESH with the transfer `op` due and `pos` the position after it: the frame, and what either outcome of the
transfer leaves (42_sequencer R123 to R125). -/
theorem agentStep_refresh {op : TransportOp} {pos : Seq} (hp : s.seq.phase = .refresh) (hop : dueOp s = op)
    (hpos : nextPos s = pos) :
    ∃ t, agentStep .sequencer s = .next t ∧
      TransferFrame s t ∧
      (failureOf s.cfg.transport op (takeDraw s).1 = none →
        t.trace = s.trace ++ [op.event] ∧ t.err = s.err ∧ t.seq = pos ∧
        t.lines = linesAfter s.cfg.transport op (takeDraw s).1 s.lines) ∧
      ∀ e, failureOf s.cfg.transport op (takeDraw s).1 = some e →
        t.trace = s.trace ++ [.fail e] ∧ t.err = e ∧ t.seq = { s.seq with phase := .halted } := by
  subst hop hpos
  refine ⟨_, sequencerStep_refresh hp, transferStep_frame _ _ s, fun hok => ?_, fun e hfail => ?_⟩
  · rw [transferStep_of_ok hok]
    exact ⟨rfl, rfl, rfl, rfl⟩
  · rw [transferStep_of_failure hfail]
    exact ⟨rfl, rfl, rfl⟩

end

/-! ### The lines after a transfer that did not fail -/

/-- Bit 0 is the last bit of a word on the wire (20_memory R46). -/
theorem wordBits_eq_concat (w : Word) :
    wordBits w = (List.range 15).map (fun n => w.getLsbD (15 - n)) ++ [w.getLsbD 0] := by
  rw [wordBits, List.range_succ, List.map_append]
  rfl

/-- The data line keeps the last bit shifted out (44_transport R161). -/
theorem data_after_bitbangBits (bits : List Bool) (b : Bool) (l : Lines) :
    (((bits ++ [b]).flatMap bitbangBit).foldl Lines.after l).data = b := by
  rw [List.flatMap_append, List.foldl_append]
  rfl

/-- The latch pulse keeps the data line (44_transport R163). -/
theorem data_after_latchPulse (l : Lines) : (latchPulse.foldl Lines.after l).data = l.data := rfl

/-- Under BITBANG the data line is left at bit 0 of the word (44_transport section 1). -/
theorem linesAfter_word_data (w : Word) (d : Draw) (l : Lines) :
    (linesAfter .bitbang (.word w) d l).data = w.getLsbD 0 := by
  show ((bitbangWord w).foldl Lines.after l).data = _
  rw [bitbangWord, List.foldl_append, data_after_latchPulse, wordBits_eq_concat, data_after_bitbangBits]

/-- OeOff drives oe_en low and, under BITBANG, no other line (44_transport R164). -/
theorem linesAfter_oeOff (tr : Transport) (d : Draw) (l : Lines) :
    (linesAfter tr .oeOff d l).oeEn = false ∧ (linesAfter tr .oeOff d l).latch = l.latch ∧
      (tr = .bitbang → (linesAfter tr .oeOff d l).data = l.data ∧ (linesAfter tr .oeOff d l).clk = l.clk) := by
  rw [(linesAfter_oe tr d l).1]
  cases tr with
  | bitbang => exact ⟨rfl, rfl, fun _ => ⟨rfl, rfl⟩⟩
  | spi => exact ⟨rfl, rfl, nofun⟩

/-- OeOn drives oe_en high and, under BITBANG, no other line (44_transport R164). -/
theorem linesAfter_oeOn (tr : Transport) (d : Draw) (l : Lines) :
    (linesAfter tr .oeOn d l).oeEn = true ∧ (linesAfter tr .oeOn d l).latch = l.latch ∧
      (tr = .bitbang → (linesAfter tr .oeOn d l).data = l.data ∧ (linesAfter tr .oeOn d l).clk = l.clk) := by
  rw [(linesAfter_oe tr d l).2]
  cases tr with
  | bitbang => exact ⟨rfl, rfl, fun _ => ⟨rfl, rfl⟩⟩
  | spi => exact ⟨rfl, rfl, nofun⟩

/-! ### The obligations -/

/-- Settles O18: the message completes and keeps Q and the position (`exec_keeps_queue_position_cfg`), and the step counts it. -/
theorem drainAppliesTheHeadOfTheQueue : Obligations.DrainAppliesTheHeadOfTheQueue := by
  unfold Obligations.DrainAppliesTheHeadOfTheQueue
  intro s m rest hp hq hcap
  obtain ⟨t, hexec, hrest, hseq, (hcfg : t.cfg = s.cfg)⟩ :=
    exec_keeps_queue_position_cfg (decode m) { s with q := rest }
  refine ⟨t, hexec, ?_, hrest, hseq⟩
  rw [← hcfg, ← countDrained_eq t]
  exact sequencerStep_drain hp hq (capReached_eq_false.2 hcap) hexec

/-- Settles O20, by `agentStep_refresh` with the word due. -/
theorem wordStepTransfersAndMovesOn : Obligations.WordStepTransfersAndMovesOn := by
  unfold Obligations.WordStepTransfersAndMovesOn
  intro s hp hsub
  obtain ⟨t, hstep, hframe, hok, hfail⟩ := agentStep_refresh hp (dueOp_words hsub) (nextPos_words hsub)
  refine ⟨t, hstep, hframe, fun h => ?_, hfail⟩
  obtain ⟨htrace, herr, hseq, hlines⟩ := hok h
  obtain ⟨hlatch, hoe, hclk⟩ := linesAfter_word s.cfg.transport
    (readWord s.fb (planeOffset s.cfg s.seq.k + s.seq.i)) (takeDraw s).1 s.lines
  rw [hlines]
  refine ⟨htrace, herr, hseq, hoe, hlatch, fun htr => ⟨?_, hclk htr⟩⟩
  rw [htr, linesAfter_word_data]

/-- Settles O19, by `sequencerStep_startPass`: `drained` at the cap is the cap reached. -/
theorem passStartsOnEmptyQueueOrReachedCap : Obligations.PassStartsOnEmptyQueueOrReachedCap := by
  unfold Obligations.PassStartsOnEmptyQueueOrReachedCap
  intro s hp h
  have hcap : s.cfg.drainCap = some s.seq.drained → capReached s = true :=
    fun hn => capReached_eq_true.2 ⟨_, hn, le_rfl⟩
  exact sequencerStep_startPass hp (h.imp_right hcap)

/-- Settles O21, by `agentStep_refresh` with OeOff due. -/
theorem oeOffStepDisablesTheOutputs : Obligations.OeOffStepDisablesTheOutputs := by
  unfold Obligations.OeOffStepDisablesTheOutputs
  intro s hp hsub
  obtain ⟨t, hstep, hframe, hok, hfail⟩ := agentStep_refresh hp (dueOp_oeOff hsub) (nextPos_oeOff hsub)
  refine ⟨t, hstep, hframe, fun h => ?_, hfail⟩
  obtain ⟨htrace, herr, hseq, hlines⟩ := hok h
  rw [hlines]
  exact ⟨htrace, herr, hseq, linesAfter_oeOff s.cfg.transport _ s.lines⟩

/-- Settles O22, by `agentStep_refresh` with OeOn due. -/
theorem oeOnStepEndsThePlane : Obligations.OeOnStepEndsThePlane := by
  unfold Obligations.OeOnStepEndsThePlane
  intro s hp hsub
  obtain ⟨t, hstep, hframe, hok, hfail⟩ := agentStep_refresh hp (dueOp_oeOn hsub) (nextPos_oeOn hsub)
  refine ⟨t, hstep, hframe, fun h => ?_, hfail⟩
  obtain ⟨htrace, herr, hseq, hlines⟩ := hok h
  obtain ⟨hoe, hlatch, hdata⟩ := linesAfter_oeOn s.cfg.transport (takeDraw s).1 s.lines
  rw [hlines]
  exact ⟨htrace, herr, hoe, hlatch, hdata, hseq⟩

/-- Settles O23, by `sequencerStep_yield`. -/
theorem yieldReturnsToDrain : Obligations.YieldReturnsToDrain := by
  unfold Obligations.YieldReturnsToDrain
  intro s hp
  exact sequencerStep_yield hp

end Sys2Proof.Machine
end

section
/-! PROOFS about Q over one step of any agent (43_queue R143): what RESTART and a turn of the sequencer do to Q, then the
obligation. -/

namespace Sys2Proof.Machine

/-- RESTART keeps Q (70_reset_and_hazards R202). -/
@[simp] theorem restartBlock_q (s : State) : (restartBlock s).q = s.q := resetLevels_q s

/-- A REFRESH step keeps Q, whether its transfer fails or not (42_sequencer R123 to R125). -/
@[simp] theorem transferStep_q (op : TransportOp) (pos : Seq) (s : State) : (transferStep op pos s).q = s.q :=
  (congrArg State.q (transferStep_frame op pos s) :)

/-- A turn of the sequencer keeps Q, or takes its head in a DRAIN step (42_sequencer R121). -/
theorem sequencerStep_q {s t : State} (h : sequencerStep s = .next t) :
    t.q = s.q ∨ (s.seq.phase = .drain ∧ ∃ m, s.q = m :: t.q) := by
  obtain ⟨-, -, rfl⟩ | ⟨m, rest, u, hp, hq, -, hexec, rfl⟩ | ⟨-, rfl⟩ | ⟨-, rfl⟩ := sequencerStep_cases h
  · exact .inl (startPass_q s)
  · obtain ⟨u', hexec', hrest, -, -⟩ := exec_keeps_queue_position_cfg (decode m) { s with q := rest }
    obtain rfl : u = u' := Host.Outcome.next.inj (hexec.symm.trans hexec')
    exact .inr ⟨hp, m, by rw [countDrained_q, hrest, hq]⟩
  · exact .inl (transferStep_q _ _ s)
  · exact .inl (yieldStep_q s)

/-- Settles O37, by cases on the action: a producer's step appends at the tail or keeps Q (`pushNb_cases`, `pushBlk_cases`,
`pushDone_cases`), and `sequencerStep_q` gives the sequencer's turn. -/
theorem queueIsFirstInFirstOut : Obligations.QueueIsFirstInFirstOut := by
  unfold Obligations.QueueIsFirstInFirstOut
  intro a s t h
  cases a with
  | sequencer => exact (sequencerStep_q h).imp_right fun htake => .inr (.inl ⟨rfl, htake⟩)
  | pushNb p m =>
    obtain ⟨-, ⟨-, rfl⟩ | ⟨-, rfl⟩⟩ := pushNb_cases h
    · exact .inr (.inl ⟨rfl, m, enqueue_q m s⟩)
    · exact .inl (recordDrop_q s)
  | pushBlk p m =>
    obtain ⟨-, rfl⟩ := pushBlk_cases h
    exact .inl (setPort_q s p (some m))
  | pushDone p =>
    obtain ⟨m, -, -, rfl⟩ := pushDone_cases h
    exact .inr (.inl ⟨rfl, m, by rw [setPort_q, enqueue_q]⟩)
  | statusRead n =>
    cases h
    exact .inl (statusRead_q n s)
  | reset =>
    cases h
    exact .inr (.inr (.inr ⟨.inl rfl, resetBlock_q s⟩))
  | restart =>
    cases h
    exact .inl (restartBlock_q s)
  | resetAndRestart =>
    cases h
    exact .inr (.inr (.inr ⟨.inr rfl, resetBlock_q s⟩))
  | reconfigure c => cases h

end Sys2Proof.Machine
end

section
/-! PROOFS about single transfers (44_transport R161, R166): the kinds of error an operation's sub-operations report and the
order of a bit-banged word's pin writes, then the obligations. -/

namespace Sys2Proof.Machine

/-! ### The kinds of error -/

/-- A failed sub-operation reports its own kind (44_transport R166). -/
theorem failureOf_of_getElem? {tr : Transport} {op : TransportOp} {d : Draw} {n : Nat} {o : WireOp}
    (hd : d.failAt = some n) (ho : (subOps tr op)[n]? = some o) : failureOf tr op d = some o.errKind := by
  simp [failureOf, hd, ho]

/-- The draws give ok and the kinds of the operation's sub-operations, and nothing else (44_transport R166). -/
theorem exists_failureOf_eq_iff (tr : Transport) (op : TransportOp) (e : Option ErrKind) :
    (∃ d, failureOf tr op d = e) ↔ e = none ∨ ∃ k ∈ (subOps tr op).map WireOp.errKind, e = some k := by
  constructor
  · rintro ⟨d, rfl⟩
    cases h : failureOf tr op d with
    | none => exact .inl rfl
    | some k =>
      obtain ⟨n, -, hn⟩ := Option.bind_eq_some_iff.1 h
      obtain ⟨o, ho, rfl⟩ := Option.map_eq_some_iff.1 hn
      exact .inr ⟨_, List.mem_map_of_mem (List.mem_of_getElem? ho), rfl⟩
  · rintro (rfl | ⟨k, hk, rfl⟩)
    · exact ⟨⟨none, default⟩, rfl⟩
    · obtain ⟨o, ho, rfl⟩ := List.mem_map.1 hk
      obtain ⟨n, hn⟩ := List.mem_iff_getElem?.1 ho
      exact ⟨⟨some n, default⟩, failureOf_of_getElem? rfl hn⟩

/-- Every sub-operation of a bit-banged word is a pin write, whatever its bits (44_transport R161). -/
theorem errKinds_bitbangWord (w : Word) :
    (subOps .bitbang (.word w)).map WireOp.errKind = List.replicate 50 .pinError := rfl

/-- Over SPI a word's two bytes go to the serial engine; only its latch pulse is pin writes (44_transport R162). -/
theorem errKinds_spiWord (w : Word) :
    (subOps .spi (.word w)).map WireOp.errKind = [.busError, .busError, .pinError, .pinError] := rfl

/-! ### The pin writes of a bit-banged word -/

@[simp] theorem length_wordBits (w : Word) : (wordBits w).length = 16 := by simp [wordBits]

theorem getElem?_wordBits (w : Word) {n : Nat} (hn : n < 16) : (wordBits w)[n]? = some (w.getLsbD (15 - n)) := by
  simp [wordBits, hn]

theorem length_flatMap_bitbangBit (bits : List Bool) : (bits.flatMap bitbangBit).length = 3 * bits.length := by
  induction bits with
  | nil => rfl
  | cons b bits ih => simp [bitbangBit, ih]; omega

/-- The `n`-th bit takes the three places from `3 * n` on (44_transport R161). -/
theorem getElem?_flatMap_bitbangBit {bits : List Bool} {n : Nat} {b : Bool} (h : bits[n]? = some b) {j : Nat} (hj : j < 3) :
    (bits.flatMap bitbangBit)[3 * n + j]? = (bitbangBit b)[j]? := by
  induction bits generalizing n with
  | nil => cases h
  | cons c bits ih =>
    rw [List.flatMap_cons]
    cases n with
    | zero =>
      obtain rfl : c = b := by simpa using h
      rw [Nat.mul_zero, Nat.zero_add, List.getElem?_append_left hj]
    | succ n =>
      have hplace : 3 * (n + 1) + j = (bitbangBit c).length + (3 * n + j) := by
        show _ = 3 + _
        omega
      rw [hplace, List.getElem?_append_right (Nat.le_add_right _ _), Nat.add_sub_cancel_left]
      exact ih h

/-- The pin writes of a word's bits stand before its latch pulse, bit 15 first (44_transport R161). -/
theorem getElem?_bitbangWord_bit (w : Word) {n j : Nat} (hn : n < 16) (hj : j < 3) :
    (subOps .bitbang (.word w))[3 * n + j]? = (bitbangBit (w.getLsbD (15 - n)))[j]? := by
  show (bitbangWord w)[_]? = _
  have hlt : 3 * n + j < ((wordBits w).flatMap bitbangBit).length := by
    rw [length_flatMap_bitbangBit, length_wordBits]
    omega
  rw [bitbangWord, List.getElem?_append_left hlt, getElem?_flatMap_bitbangBit (getElem?_wordBits w hn) hj]

/-- The latch pulse follows the 48 pin writes of the bits (44_transport R161). -/
theorem getElem?_bitbangWord_latch (w : Word) (j : Nat) :
    (subOps .bitbang (.word w))[48 + j]? = latchPulse[j]? := by
  show (bitbangWord w)[_]? = _
  have hlen : ((wordBits w).flatMap bitbangBit).length = 48 := by
    rw [length_flatMap_bitbangBit, length_wordBits]
  rw [bitbangWord, ← hlen, List.getElem?_append_right (Nat.le_add_right _ _), Nat.add_sub_cancel_left]

theorem length_bitbangWord (w : Word) : (subOps .bitbang (.word w)).length = 50 := by
  simpa using congrArg List.length (errKinds_bitbangWord w)

/-- Whichever pin write of a bit-banged word fails, the kind is PinError (44_transport R161). -/
theorem failureOf_bitbangWord (w : Word) {d : Draw} {n : Nat} (hd : d.failAt = some n) (hn : n < 50) :
    failureOf .bitbang (.word w) d = some .pinError := by
  rw [failureOf, hd, Option.bind_some, ← List.getElem?_map, errKinds_bitbangWord, List.getElem?_replicate_of_lt hn]

/-! ### The obligations -/

/-- Settles O29: the kinds that occur are those of the sub-operations (`exists_failureOf_eq_iff`), read off per operation. -/
theorem transferFailureKinds : Obligations.TransferFailureKinds := by
  unfold Obligations.TransferFailureKinds
  refine ⟨fun w e => ?word, fun w e => ?spi, fun tr e => ?off, fun tr e => ?on,
    fun tr op d n o hd ho => failureOf_of_getElem? hd ho⟩
  case word => simp [exists_failureOf_eq_iff, errKinds_bitbangWord]
  case spi => simp [exists_failureOf_eq_iff, errKinds_spiWord, or_comm]
  case off => simp [exists_failureOf_eq_iff, subOps, WireOp.errKind]
  case on => simp [exists_failureOf_eq_iff, subOps, WireOp.errKind]

/-- Settles O26: the bits' pin writes by `getElem?_bitbangWord_bit`, the pulse by `getElem?_bitbangWord_latch`. -/
theorem bitbangWordIsFiftyPinWrites : Obligations.BitbangWordIsFiftyPinWrites := by
  unfold Obligations.BitbangWordIsFiftyPinWrites
  intro w
  exact ⟨length_bitbangWord w,
    fun n hn => ⟨getElem?_bitbangWord_bit w hn (j := 0) (by decide), getElem?_bitbangWord_bit w hn (j := 1) (by decide),
      getElem?_bitbangWord_bit w hn (j := 2) (by decide)⟩,
    getElem?_bitbangWord_latch w 0, getElem?_bitbangWord_latch w 1,
    fun n hn d hd => failureOf_bitbangWord w hd hn⟩

end Sys2Proof.Machine
end

section
/-! PROOFS about halting (60_exceptions R183): the state a failed transfer leaves, read off field by field. -/

namespace Sys2Proof.Machine

/-- Settles O32: the turn in REFRESH is the transfer that is due (`sequencerStep_refresh`), and `transferStep_of_failure` writes
out the whole state it leaves when it fails. -/
theorem failedTransferHaltsTheSequencer : Obligations.FailedTransferHaltsTheSequencer := by
  unfold Obligations.FailedTransferHaltsTheSequencer
  intro s e hp hfail
  refine ⟨_, sequencerStep_refresh hp, ?_⟩
  rw [transferStep_of_failure hfail]
  exact ⟨rfl, rfl, rfl, rfl, rfl, rfl, rfl, rfl, rfl, rfl⟩

end Sys2Proof.Machine
end

section
/-! PROOFS about the message word and the assembler (30_encoding sections 1 to 4): the reserved tags, the fields as numbers, which
lines are refused, then the five obligations about them. -/

namespace Sys2Proof

/-! ### The decoder by arithmetic -/

section
variable {m : MsgWord}

theorem decode_of_tag_zero (h : tagOf m = 0#4) : decode m = .reservedTag0 := by
  simp [decode, h]

theorem decode_of_tag_six_or_seven (h : tagOf m = 6#4 ∨ tagOf m = 7#4) : decode m = .reservedTag6to7 (tagOf m) := by
  obtain h | h := h <;> simp [decode, h]

theorem decode_of_eight_le_tag (h : 8#4 ≤ tagOf m) : decode m = .reservedTag8toF (tagOf m) := by
  have hnot (t : BitVec 4) (ht : t < 8#4) : tagOf m ≠ t := fun he => BitVec.not_le.2 ht (he ▸ h)
  simp [decode, hnot 1#4 (by decide), hnot 2#4 (by decide), hnot 3#4 (by decide), hnot 4#4 (by decide),
    hnot 5#4 (by decide), hnot 0#4 (by decide), BitVec.not_lt.2 h]

/-- The tag as a number: the four low bits of the word (30_encoding R61). -/
theorem tagOf_as_number (m : MsgWord) : tagOf m = BitVec.ofNat 4 m.toNat := by
  rw [tagOf, field_as_number, Nat.pow_zero, Nat.div_one]

theorem eight_le_tagOf (h : 8 ≤ m.toNat % 16) : 8#4 ≤ tagOf m := by
  rw [BitVec.le_def, tagOf_as_number, BitVec.toNat_ofNat]
  exact h

end

/-- Settles O2: the number's remainder is the tag (`tagOf_eq_iff`), each tag's message is known, and a field's number is its
quotient (`field_as_number`). -/
theorem decoderIsTotalAndReadsTheFields : Obligations.DecoderIsTotalAndReadsTheFields := by
  unfold Obligations.DecoderIsTotalAndReadsTheFields
  intro m
  have htag (t : BitVec 4) : m.toNat % 16 = t.toNat → tagOf m = t := (tagOf_eq_iff m t).2
  simp only [← field_as_number, ← tagOf_as_number]
  exact ⟨fun h => decode_of_tag_one (htag 1#4 h), fun h => decode_of_tag_two (htag 2#4 h),
    fun h => decode_of_tag_three (htag 3#4 h), fun h => decode_of_tag_four (htag 4#4 h),
    fun h => decode_of_tag_five (htag 5#4 h), fun h => decode_of_tag_zero (htag 0#4 h),
    fun h => decode_of_tag_six_or_seven (h.imp (htag 6#4) (htag 7#4)), fun h => decode_of_eight_le_tag (eight_le_tagOf h)⟩

/-- Settles O3, by `decode_encode`. -/
theorem decodeOfEncodeIsTheMessage : Obligations.DecodeOfEncodeIsTheMessage := by
  unfold Obligations.DecodeOfEncodeIsTheMessage
  exact fun _ h => decode_encode h

/-- Settles O1: each row of the table of examples is computed. -/
theorem exampleWordsDecodeAndEncode : Obligations.ExampleWordsDecodeAndEncode := by
  unfold Obligations.ExampleWordsDecodeAndEncode
  decide

namespace Machine

/-! ### The operands of a line (30_encoding R67) -/

theorem coordinate_of_le {n : Nat} (h : n ≤ 255) : coordinate n = some (BitVec.ofNat 8 n) := if_pos h

theorem le_of_coordinate {n : Nat} {b : BitVec 8} (h : coordinate n = some b) : n ≤ 255 :=
  (Option.ite_none_right_eq_some.1 h).1

theorem grayLevel_of_le {n : Nat} (h : n ≤ 15) : grayLevel n = some (BitVec.ofNat 4 n) := if_pos h

theorem le_of_grayLevel {n : Nat} {b : BitVec 4} (h : grayLevel n = some b) : n ≤ 15 :=
  (Option.ite_none_right_eq_some.1 h).1

/-- SetPixel's operands are taken exactly when all three fit. -/
theorem asmSetPixel_eq (x y g : Nat) :
    asmSetPixel x y g = if x ≤ 255 ∧ y ≤ 255 ∧ g ≤ 15 then
      some (.setPixel (BitVec.ofNat 8 x) (BitVec.ofNat 8 y) (BitVec.ofNat 4 g)) else none := by
  unfold asmSetPixel
  split_ifs with h
  · obtain ⟨hx, hy, hg⟩ := h
    rw [coordinate_of_le hx, coordinate_of_le hy, grayLevel_of_le hg]
  · split
    · rename_i hx hy hg
      exact absurd ⟨le_of_coordinate hx, le_of_coordinate hy, le_of_grayLevel hg⟩ h
    · rfl

/-- FillPixels' operands are taken exactly when all five fit. -/
theorem asmFillPixels_eq (x0 y0 x1 y1 g : Nat) :
    asmFillPixels x0 y0 x1 y1 g = if x0 ≤ 255 ∧ y0 ≤ 255 ∧ x1 ≤ 255 ∧ y1 ≤ 255 ∧ g ≤ 15 then
      some (.fillPixels (BitVec.ofNat 8 x0) (BitVec.ofNat 8 y0) (BitVec.ofNat 8 x1) (BitVec.ofNat 8 y1)
        (BitVec.ofNat 4 g)) else none := by
  unfold asmFillPixels
  split_ifs with h
  · obtain ⟨hx0, hy0, hx1, hy1, hg⟩ := h
    rw [coordinate_of_le hx0, coordinate_of_le hy0, coordinate_of_le hx1, coordinate_of_le hy1, grayLevel_of_le hg]
  · split
    · rename_i hx0 hy0 hx1 hy1 hg
      exact absurd ⟨le_of_coordinate hx0, le_of_coordinate hy0, le_of_coordinate hx1, le_of_coordinate hy1,
        le_of_grayLevel hg⟩ h
    · rfl

/-! ### The words of the lines (30_encoding R67, R68) -/

theorem assembleLine_setPixel (x y g : Nat) :
    assembleLine (.setPixel x y g) = if x ≤ 255 ∧ y ≤ 255 ∧ g ≤ 15 then
      some (encode (.setPixel (BitVec.ofNat 8 x) (BitVec.ofNat 8 y) (BitVec.ofNat 4 g))) else none := by
  show (asmSetPixel x y g).map encode = _
  rw [asmSetPixel_eq, apply_ite (Option.map encode), Option.map_some, Option.map_none]

theorem assembleLine_fillPixels (x0 y0 x1 y1 g : Nat) :
    assembleLine (.fillPixels x0 y0 x1 y1 g) = if x0 ≤ 255 ∧ y0 ≤ 255 ∧ x1 ≤ 255 ∧ y1 ≤ 255 ∧ g ≤ 15 then
      some (encode (.fillPixels (BitVec.ofNat 8 x0) (BitVec.ofNat 8 y0) (BitVec.ofNat 8 x1) (BitVec.ofNat 8 y1)
        (BitVec.ofNat 4 g))) else none := by
  show (asmFillPixels x0 y0 x1 y1 g).map encode = _
  rw [asmFillPixels_eq, apply_ite (Option.map encode), Option.map_some, Option.map_none]

/-- A level through `f`, the constructor of SetBrightness or of Fullfill. -/
theorem map_encode_grayLevel (f : BitVec 4 → Instr) (level : Nat) :
    ((grayLevel level).map f).map encode = if level ≤ 15 then some (encode (f (BitVec.ofNat 4 level))) else none := by
  unfold grayLevel
  split_ifs <;> rfl

theorem assembleLine_fillRect {w h : Nat} (hw : w ≤ 255) (hh : h ≤ 255) (x y g : Nat) :
    assembleLine (.fillRect x y w h g) = assembleLine (.fillPixels x y (min (x + w) 255) (min (y + h) 255) g) := by
  show (if w ≤ 255 ∧ h ≤ 255 then _ else none : Option Instr).map encode = _
  rw [if_pos ⟨hw, hh⟩]
  rfl

theorem assembleLine_fillRect_refused {w h : Nat} (hwh : 255 < w ∨ 255 < h) (x y g : Nat) :
    assembleLine (.fillRect x y w h g) = none := by
  show (if w ≤ 255 ∧ h ≤ 255 then _ else none : Option Instr).map encode = _
  rw [if_neg (by omega)]
  rfl

/-! ### The obligations about lines -/

/-- Settles O6, line by line: an operand is taken exactly when it fits its field. -/
theorem assemblerRefusesOperandsThatDoNotFit : Obligations.AssemblerRefusesOperandsThatDoNotFit := by
  unfold Obligations.AssemblerRefusesOperandsThatDoNotFit
  exact ⟨assembleLine_setPixel, assembleLine_fillPixels, rfl, map_encode_grayLevel .setBrightness,
    map_encode_grayLevel .fullfill⟩

/-- Settles O5: each pseudo-instruction's line is its expansion's, and a legal panel's W and H fit their fields. -/
theorem pseudoInstructionsExpand : Obligations.PseudoInstructionsExpand := by
  unfold Obligations.PseudoInstructionsExpand
  refine ⟨fun x y w h g hw hh => assembleLine_fillRect hw hh x y g,
    fun x y w h g hwh => assembleLine_fillRect_refused hwh x y g, fun _ => rfl, fun _ _ _ => rfl, fun c g hc hg => ?_⟩
  obtain ⟨⟨-, hw, -, hh⟩, -⟩ := hc
  rw [assembleLine_fillRect hw hh, Nat.zero_add, Nat.zero_add, Nat.min_eq_left hw, Nat.min_eq_left hh,
    assembleLine_fillPixels, if_pos ⟨Nat.zero_le _, Nat.zero_le _, hw, hh, hg⟩]

end Machine
end Sys2Proof
end

section
/-! PROOFS about the agents' steps (00_scope R5, R6): what each agent's step leaves unchanged, and when it completes. The frame of
every step that is neither the sequencer's nor RESET or RESTART is said once (`agentStep_bystander`). -/

namespace Sys2Proof.Machine

/-! ### Steps that do not concern the sequencer -/

/-- All that a step of a producer or a status read may change (00_scope R6). -/
def BystanderFrame (s t : State) : Prop :=
  t = { s with q := t.q, blk := t.blk, drop := t.drop, dropCount := t.dropCount, reads := t.reads }

section
variable {s t : State}

theorem BystanderFrame.seq (h : BystanderFrame s t) : t.seq = s.seq := (congrArg State.seq h :)
theorem BystanderFrame.err (h : BystanderFrame s t) : t.err = s.err := (congrArg State.err h :)
theorem BystanderFrame.fb (h : BystanderFrame s t) : t.fb = s.fb := (congrArg State.fb h :)
theorem BystanderFrame.lines (h : BystanderFrame s t) : t.lines = s.lines := (congrArg State.lines h :)
theorem BystanderFrame.trace (h : BystanderFrame s t) : t.trace = s.trace := (congrArg State.trace h :)
theorem BystanderFrame.cfg (h : BystanderFrame s t) : t.cfg = s.cfg := (congrArg State.cfg h :)
theorem BystanderFrame.sched (h : BystanderFrame s t) : t.sched = s.sched := (congrArg State.sched h :)
theorem BystanderFrame.draws (h : BystanderFrame s t) : t.draws = s.draws := (congrArg State.draws h :)

/-- A producer's step changes Q, the slots and the drop diagnostics only, and appends to Q if it changes it
(43_queue R141, R142). -/
theorem agentStep_producer {a : Action} (ha : isProducer a = true) (h : agentStep a s = .next t) :
    t = { s with q := t.q, blk := t.blk, drop := t.drop, dropCount := t.dropCount } ∧
      ∃ pushed, t.q = s.q ++ pushed := by
  cases a with
  | pushNb p m =>
    obtain ⟨-, ⟨-, rfl⟩ | ⟨-, rfl⟩⟩ := pushNb_cases h
    · exact ⟨rfl, [m], rfl⟩
    · exact ⟨rfl, [], (List.append_nil _).symm⟩
  | pushBlk p m =>
    obtain ⟨-, rfl⟩ := pushBlk_cases h
    exact ⟨rfl, [], (List.append_nil _).symm⟩
  | pushDone p =>
    obtain ⟨m, -, -, rfl⟩ := pushDone_cases h
    exact ⟨rfl, [m], rfl⟩
  | sequencer | statusRead n | reset | restart | resetAndRestart | reconfigure c => cases ha

/-- Every agent step but the sequencer's and RESET or RESTART keeps all but Q, the slots, the drop diagnostics and the record of
status reads, and drops nothing from Q. -/
theorem agentStep_bystander {a : Action} (hseq : a ≠ .sequencer) (hreset : isResetOrRestart a = false)
    (h : agentStep a s = .next t) : BystanderFrame s t ∧ ∃ pushed, t.q = s.q ++ pushed := by
  cases a with
  | sequencer => exact absurd rfl hseq
  | pushNb p m | pushBlk p m | pushDone p =>
    obtain ⟨hframe, hq⟩ := agentStep_producer rfl h
    exact ⟨by rw [BystanderFrame, hframe], hq⟩
  | statusRead n =>
    cases h
    exact ⟨rfl, [], (List.append_nil _).symm⟩
  | reset | restart | resetAndRestart => cases hreset
  | reconfigure c => cases h

/-- RESET alone or with RESTART, and RESTART alone (70_reset_and_hazards R203). -/
theorem agentStep_resetOrRestart {a : Action} (ha : isResetOrRestart a = true) (h : agentStep a s = .next t) :
    ((a = .reset ∨ a = .resetAndRestart) ∧ t = resetBlock s) ∨ (a = .restart ∧ t = restartBlock s) := by
  cases a with
  | reset =>
    cases h
    exact .inl ⟨.inl rfl, rfl⟩
  | resetAndRestart =>
    cases h
    exact .inl ⟨.inr rfl, rfl⟩
  | restart =>
    cases h
    exact .inr ⟨rfl, rfl⟩
  | sequencer | pushNb p m | pushBlk p m | pushDone p | statusRead n | reconfigure c => cases ha

/-! ### The sequencer's turn -/

/-- All that a turn of the sequencer may change (00_scope R6). -/
def SequencerFrame (s t : State) : Prop :=
  t = { s with
    fb := t.fb, q := t.q, seq := t.seq, err := t.err, badtag := t.badtag, lines := t.lines, trace := t.trace
    wire := t.wire, draws := t.draws, drawn := t.drawn }

/-- Applying a message writes FB or BADTAG only (41_messages R105). -/
theorem exec_next_cases {i : Instr} (h : exec i s = .next t) :
    (∃ fb, t = { s with fb := fb }) ∨ t = { s with badtag := true } := by
  obtain ⟨fb, h'⟩ | h' := exec_cases i s <;> obtain rfl := Host.Outcome.next.inj (h.symm.trans h')
  · exact .inl ⟨fb, rfl⟩
  · exact .inr rfl

/-- A DRAIN step changes FB, Q, the position and BADTAG only (42_sequencer R121, R122). -/
theorem sequencerStep_drain_frame (hp : s.seq.phase = .drain) (h : sequencerStep s = .next t) :
    t = { s with fb := t.fb, q := t.q, seq := t.seq, badtag := t.badtag } := by
  obtain ⟨-, -, rfl⟩ | ⟨m, rest, u, -, -, -, hexec, rfl⟩ | ⟨hp', -⟩ | ⟨hp', -⟩ := sequencerStep_cases h
  · rfl
  · rw [countDrained_eq]
    obtain ⟨fb, rfl⟩ | rfl := exec_next_cases hexec <;> rfl
  · cases hp.symm.trans hp'
  · cases hp.symm.trans hp'

/-- Outside DRAIN a turn keeps FB, Q and BADTAG (42_sequencer R123 to R126). -/
theorem sequencerStep_frame_of_ne_drain (hp : s.seq.phase ≠ .drain) (h : sequencerStep s = .next t) :
    TransferFrame s t := by
  obtain ⟨hp', -⟩ | ⟨m, rest, u, hp', -⟩ | ⟨-, rfl⟩ | ⟨-, rfl⟩ := sequencerStep_cases h
  · exact absurd hp' hp
  · exact absurd hp' hp
  · exact transferStep_frame _ _ s
  · rfl

/-- A turn of the sequencer changes no slot, no drop diagnostic, no configuration, no schedule and no record of status reads. -/
theorem sequencerStep_frame (h : sequencerStep s = .next t) : SequencerFrame s t := by
  by_cases hp : s.seq.phase = .drain
  · rw [SequencerFrame, sequencerStep_drain_frame hp h]
  · have hframe : t = _ := sequencerStep_frame_of_ne_drain hp h
    rw [SequencerFrame, hframe]

/-- FB changes only in DRAIN steps of the sequencer and at RESET or RESTART (20_memory section 5). -/
theorem agentStep_writes_fb {a : Action} (h : agentStep a s = .next t) (hfb : t.fb ≠ s.fb) :
    (a = .sequencer ∧ s.seq.phase = .drain) ∨ isResetOrRestart a = true := by
  by_contra hnot
  obtain ⟨hturn, hreset⟩ := not_or.1 hnot
  by_cases hseq : a = .sequencer
  · subst hseq
    have hp : s.seq.phase ≠ .drain := fun hp => hturn ⟨rfl, hp⟩
    exact hfb (congrArg State.fb (sequencerStep_frame_of_ne_drain hp h) :)
  · exact hfb (agentStep_bystander hseq (Bool.eq_false_iff.2 hreset) h).1.fb

/-- No agent's step changes the configuration (70_reset_and_hazards R204). -/
theorem agentStep_cfg {a : Action} (h : agentStep a s = .next t) : t.cfg = s.cfg := by
  by_cases hseq : a = .sequencer
  · subst hseq
    exact (congrArg State.cfg (sequencerStep_frame h) :)
  cases hreset : isResetOrRestart a with
  | false => exact (agentStep_bystander hseq hreset h).1.cfg
  | true =>
    obtain ⟨-, rfl⟩ | ⟨-, rfl⟩ := agentStep_resetOrRestart hreset h
    · exact resetBlock_cfg s
    · exact resetLevels_cfg s

/-! ### The producers' ports -/

/-- A producer's step leaves every port's slot but its own (43_queue R140). -/
theorem portSlot_of_other_port {a : Action} {p : Nat} (ha : isProducer a = true) (hp : actionPort a ≠ some p)
    (h : agentStep a s = .next t) : portSlot t p = portSlot s p := by
  cases a with
  | pushNb p' m =>
    obtain ⟨-, ⟨-, rfl⟩ | ⟨-, rfl⟩⟩ := pushNb_cases h <;> rfl
  | pushBlk p' m =>
    obtain ⟨hslot, rfl⟩ := pushBlk_cases h
    exact portSlot_setPort_ne (portSlot_lt hslot).1 fun he => hp (congrArg some he.symm)
  | pushDone p' =>
    obtain ⟨m, hslot, -, rfl⟩ := pushDone_cases h
    exact portSlot_setPort_ne (portSlot_lt hslot).1 fun he => hp (congrArg some he.symm)
  | sequencer | statusRead n | reset | restart | resetAndRestart | reconfigure c => cases ha

theorem portSlot_congr (h : t.blk = s.blk) (p : Nat) : portSlot t p = portSlot s p := by
  rw [portSlot, portSlot, h]

section
variable {p : Nat} {m : MsgWord}

theorem pushNb_of_free (hp : portSlot s p = some none) (m : MsgWord) :
    pushNb p m s = .next (if s.q.length < s.cfg.qcap then enqueue m s else recordDrop s) := by
  rw [pushNb, hp]

theorem pushNb_of_held (hp : portSlot s p = some (some m)) (m' : MsgWord) : pushNb p m' s = .refused .portHeld := by
  rw [pushNb, hp]

theorem pushBlk_of_free (hp : portSlot s p = some none) (m : MsgWord) :
    pushBlk p m s = .next (setPort s p (some m)) := by
  rw [pushBlk, hp]

theorem pushBlk_of_held (hp : portSlot s p = some (some m)) (m' : MsgWord) : pushBlk p m' s = .refused .portHeld := by
  rw [pushBlk, hp]

theorem pushDone_of_held (hp : portSlot s p = some (some m)) :
    pushDone p s =
      if s.q.length < s.cfg.qcap then .next (setPort (enqueue m s) p none) else .refused .queueFull := by
  rw [pushDone, hp]

/-- A held word stays in its slot under every step but its completion and RESET (43_queue R142). -/
theorem portSlot_held {a : Action} (hp : portSlot s p = some (some m)) (h : agentStep a s = .next t) :
    portSlot t p = some (some m) ∨ a = .pushDone p ∨ a = .reset ∨ a = .resetAndRestart := by
  by_cases hother : isProducer a = true ∧ actionPort a ≠ some p
  · exact .inl ((portSlot_of_other_port hother.1 hother.2 h).trans hp)
  cases a with
  | sequencer =>
    have hblk : t.blk = s.blk := (congrArg State.blk (sequencerStep_frame h) :)
    exact .inl ((portSlot_congr hblk p).trans hp)
  | pushNb p' m' =>
    obtain rfl : p' = p := by simpa [isProducer, actionPort] using hother
    cases (pushNb_of_held hp m').symm.trans h
  | pushBlk p' m' =>
    obtain rfl : p' = p := by simpa [isProducer, actionPort] using hother
    cases (pushBlk_of_held hp m').symm.trans h
  | pushDone p' =>
    obtain rfl : p' = p := by simpa [isProducer, actionPort] using hother
    exact .inr (.inl rfl)
  | statusRead n =>
    cases h
    exact .inl hp
  | restart =>
    cases h
    exact .inl ((portSlot_congr (resetLevels_blk s) p).trans hp)
  | reset => exact .inr (.inr (.inl rfl))
  | resetAndRestart => exact .inr (.inr (.inr rfl))
  | reconfigure c => cases h

end

/-! ### When a step completes -/

/-- In HALTED no sequencer step is enabled (42_sequencer R127). -/
theorem sequencerStep_halted (hp : s.seq.phase = .halted) : sequencerStep s = .fault .sequencerHalted := by
  rw [sequencerStep, hp]

/-- Outside HALTED exactly one sequencer step is enabled (42_sequencer R120). -/
theorem sequencerStep_completes (hp : s.seq.phase ≠ .halted) : ∃ t, sequencerStep s = .next t := by
  cases hphase : s.seq.phase with
  | drain =>
    by_cases hstart : s.q = [] ∨ capReached s = true
    · exact ⟨_, sequencerStep_startPass hphase hstart⟩
    · obtain ⟨hq, hcap⟩ := not_or.1 hstart
      obtain ⟨m, rest, hq⟩ := List.exists_cons_of_ne_nil hq
      obtain ⟨t, hexec, -⟩ := exec_keeps_queue_position_cfg (decode m) { s with q := rest }
      exact ⟨_, sequencerStep_drain hphase hq (Bool.eq_false_iff.2 hcap) hexec⟩
  | refresh => exact ⟨_, sequencerStep_refresh hphase⟩
  | yield => exact ⟨_, sequencerStep_yield hphase⟩
  | halted => exact absurd hphase hp

end

/-! ### The obligations -/

/-- Settles O33: in HALTED the turn is the fault (`sequencerStep_halted`), and in every other phase it completes
(`sequencerStep_completes`). -/
theorem sequencerStopsExactlyInHalted : Obligations.SequencerStopsExactlyInHalted := by
  unfold Obligations.SequencerStopsExactlyInHalted
  refine fun s => ⟨⟨fun h => ?_, sequencerStep_halted⟩, sequencerStep_completes⟩
  by_contra hp
  obtain ⟨t, ht⟩ := sequencerStep_completes hp
  cases ht.symm.trans h

/-- Settles O39, by cases on the action: a step that completes was enabled (the `_cases` lemmas of the producers, HALTED for the
sequencer), and an enabled one completes. -/
theorem stepCompletesExactlyWhenEnabled : Obligations.StepCompletesExactlyWhenEnabled := by
  unfold Obligations.StepCompletesExactlyWhenEnabled
  intro a s
  cases a with
  | sequencer =>
    refine ⟨fun ⟨t, h⟩ hp => ?_, sequencerStep_completes⟩
    cases (sequencerStep_halted hp).symm.trans h
  | pushNb p m => exact ⟨fun ⟨t, h⟩ => (pushNb_cases h).1, fun hp => ⟨_, pushNb_of_free hp m⟩⟩
  | pushBlk p m => exact ⟨fun ⟨t, h⟩ => (pushBlk_cases h).1, fun hp => ⟨_, pushBlk_of_free hp m⟩⟩
  | pushDone p =>
    constructor
    · rintro ⟨t, h⟩
      obtain ⟨m, hp, hq, -⟩ := pushDone_cases h
      exact ⟨⟨m, hp⟩, hq⟩
    · rintro ⟨⟨m, hp⟩, hq⟩
      exact ⟨_, (pushDone_of_held hp).trans (if_pos hq)⟩
  | statusRead n | reset | restart | resetAndRestart => exact ⟨fun _ => trivial, fun _ => ⟨_, rfl⟩⟩
  | reconfigure c => exact ⟨fun ⟨t, h⟩ => (nomatch h), False.elim⟩

/-- Settles O35, by `pushNb_of_free` and `pushNb_of_held`. DROPCOUNT is below 0xFFFF exactly when it differs from it. -/
theorem nonBlockingPushAppendsOrDrops : Obligations.NonBlockingPushAppendsOrDrops := by
  unfold Obligations.NonBlockingPushAppendsOrDrops
  refine fun s p m => ⟨fun hp hq => ?_, fun hp hq => ?_, fun m' hp => pushNb_of_held hp m⟩
  · exact (pushNb_of_free hp m).trans (by rw [if_pos hq]; rfl)
  · refine (pushNb_of_free hp m).trans ?_
    have hcount : s.dropCount = 0xFFFF#16 ↔ ¬ s.dropCount.toNat < 0xFFFF := by bv_omega
    rw [if_neg (Nat.not_lt.2 hq), recordDrop]
    simp only [hcount, ite_not]

/-- Settles O36: the port's own steps by `pushBlk_of_free`, `pushDone_of_held` and `pushNb_of_held`, every agent's by
`portSlot_held`. -/
theorem blockingPushHoldsItsPort : Obligations.BlockingPushHoldsItsPort := by
  unfold Obligations.BlockingPushHoldsItsPort
  refine ⟨fun s p m hp => ?issue, fun s p m hp hq => ?complete, fun s p m hp hq => ?full,
    fun s p m m' hp => ⟨pushNb_of_held hp m', pushBlk_of_held hp m'⟩, fun a s t p m => portSlot_held⟩
  case issue =>
    exact ⟨_, pushBlk_of_free hp m, rfl, portSlot_setPort_self hp, fun p' => portSlot_setPort_ne (portSlot_lt hp).1⟩
  case complete =>
    exact ⟨_, (pushDone_of_held hp).trans (if_pos hq), rfl, portSlot_setPort_self (s := enqueue m s) hp,
      fun p' => portSlot_setPort_ne (s := enqueue m s) (portSlot_lt hp).1⟩
  case full => exact (pushDone_of_held hp).trans (if_neg (Nat.not_lt.2 hq))

/-- Settles O38, by the frames: `agentStep_producer`, `portSlot_of_other_port`, `sequencerStep_frame`, `sequencerStep_drain_frame`,
`agentStep_writes_fb`. -/
theorem eachAgentTouchesOnlyItsOwn : Obligations.EachAgentTouchesOnlyItsOwn := by
  unfold Obligations.EachAgentTouchesOnlyItsOwn
  refine ⟨fun a s t ha h => (agentStep_producer ha h).1, fun a s t p => portSlot_of_other_port, fun s t h => ?sequencer,
    fun s t h hp => ?drain, fun a s t => agentStep_writes_fb, fun n s t h => ?status⟩
  case sequencer =>
    rw [show t = _ from sequencerStep_frame h]
    exact ⟨rfl, rfl, rfl, rfl, rfl, rfl⟩
  case drain =>
    rw [sequencerStep_drain_frame hp h]
    exact ⟨rfl, rfl, rfl, rfl⟩
  case status =>
    cases h
    rfl

/-- Settles O34: RESET and RESTART write the position and ERR, the sequencer has no step, and the other agents' steps are
bystanders' (`agentStep_bystander`). -/
theorem onlyResetOrRestartLeavesHalted : Obligations.OnlyResetOrRestartLeavesHalted := by
  unfold Obligations.OnlyResetOrRestartLeavesHalted
  refine fun a s t hp h => ⟨fun hreset => ?_, fun hreset => ?_⟩
  · obtain ⟨-, rfl⟩ | ⟨-, rfl⟩ := agentStep_resetOrRestart hreset h <;> exact ⟨rfl, rfl⟩
  · have hseq : a ≠ .sequencer := by
      rintro rfl
      cases (sequencerStep_halted hp).symm.trans h
    have hframe := (agentStep_bystander hseq hreset h).1
    exact ⟨hframe.seq, hframe.err, hframe.fb, hframe.lines, hframe.trace⟩

/-- A transfer that enables disabled outputs is OeOn's, or one that failed and halted the sequencer (log 5). -/
theorem transferStep_enables {s : State} {pos : Seq} (hoff : s.lines.oeEn = false)
    (hon : (transferStep (dueOp s) pos s).lines.oeEn = true) :
    s.seq.sub = .oeOn ∨ (transferStep (dueOp s) pos s).seq.phase = .halted := by
  cases hfail : failureOf s.cfg.transport (dueOp s) (takeDraw s).1 with
  | some e =>
    rw [transferStep_of_failure hfail]
    exact .inr rfl
  | none =>
    rw [transferStep_of_ok hfail] at hon
    change (linesAfter _ _ _ _).oeEn = true at hon
    cases hsub : s.seq.sub with
    | words =>
      rw [dueOp_words hsub, (linesAfter_word _ _ _ _).2.1, hoff] at hon
      cases hon
    | oeOff =>
      rw [dueOp_oeOff hsub, (linesAfter_oeOff _ _ _).1] at hon
      cases hon
    | oeOn => exact .inl rfl

/-- Settles O54: RESET and RESTART disable the outputs, every other step without a transfer keeps the lines, and
`transferStep_enables` speaks of the transfers. -/
theorem onlyOeOnEnablesTheOutputs : Obligations.OnlyOeOnEnablesTheOutputs := by
  unfold Obligations.OnlyOeOnEnablesTheOutputs
  intro a s t h hoff hon
  have hkept : t.lines ≠ s.lines := fun he => by
    rw [he, hoff] at hon
    cases hon
  by_cases hseq : a = .sequencer
  · subst hseq
    refine ⟨rfl, ?_⟩
    obtain ⟨-, -, rfl⟩ | ⟨m, rest, u, hp, -⟩ | ⟨hp, rfl⟩ | ⟨-, rfl⟩ := sequencerStep_cases h
    · exact absurd rfl hkept
    · exact absurd (congrArg State.lines (sequencerStep_drain_frame hp h) :) hkept
    · exact ⟨hp, transferStep_enables hoff hon⟩
    · exact absurd rfl hkept
  cases hreset : isResetOrRestart a with
  | false => exact absurd (agentStep_bystander hseq hreset h).1.lines hkept
  | true =>
    have hoe : t.lines.oeEn = false := by
      obtain ⟨-, rfl⟩ | ⟨-, rfl⟩ := agentStep_resetOrRestart hreset h <;> exact (resetLevels_lines s).2.1
    rw [hoe] at hon
    cases hon

end Sys2Proof.Machine
end

section
/-! PROOFS of the invariant of the state (`State.Inv`): it holds after reset and every agent's step keeps it. A step that leaves the
position, ERR and the lines alone is treated once (`State.Inv.of_frame`); the sequencer's own moves and the resets follow. -/

namespace Sys2Proof.Machine

/-! ### The parts of the invariant -/

section
variable {s t : State}

/-- A position at the start of a pass, or at rest, is legal (10_state R24). -/
theorem Seq.legal_at_zero {c : Config} (hc : c.WellFormed) (phase : Phase) :
    (⟨phase, 0, 0, .words, 0⟩ : Seq).Legal c where
  plane := nplanes_pos hc
  word := planeLen_pos hc
  strobe := fun _ => rfl
  atRest := fun _ => ⟨rfl, rfl, rfl⟩
  drained0 := fun _ => rfl
  drained := by
    unfold drainedInRange
    split
    · rfl
    · exact Nat.zero_le _

theorem ErrLegal.congr (h : ErrLegal s) (herr : t.err = s.err) (hphase : t.seq.phase = s.seq.phase)
    (hcfg : t.cfg = s.cfg) : ErrLegal t where
  halted := by rw [herr, hphase]; exact h.halted
  kind := by rw [herr]; exact h.kind
  bus := by rw [herr, hcfg]; exact h.bus

theorem LinesLegal.congr (h : LinesLegal s) (hlines : t.lines = s.lines) (hphase : t.seq.phase = s.seq.phase)
    (hsub : t.seq.sub = s.seq.sub) (hk : t.seq.k = s.seq.k) (hcfg : t.cfg = s.cfg) : LinesLegal t where
  latch := by rw [hlines, hphase]; exact h.latch
  clk := by rw [hlines, hphase, hcfg]; exact h.clk
  disabled := by rw [hlines, hphase, hsub]; exact h.disabled
  enabled := by rw [hlines, hphase, hsub, hk]; exact h.enabled

/-- A step that leaves the configuration, the position, ERR and the lines alone keeps the invariant when it keeps what is said of
FB, Q, the ports and the drop diagnostics. -/
theorem State.Inv.of_frame (h : s.Inv) (hcfg : t.cfg = s.cfg) (hseq : t.seq = s.seq) (herr : t.err = s.err)
    (hlines : t.lines = s.lines) (hwf : t.fb.wf) (hwithin : t.fb.within (fbLen s.cfg)) (hq : t.q.length ≤ s.cfg.qcap)
    (hblk : t.blk.length = s.blk.length) (hdrop : t.drop = true ↔ t.dropCount ≠ 0#16) : t.Inv where
  cfgOk := hcfg ▸ h.cfgOk
  fbWf := hwf
  fbWithin := hcfg ▸ hwithin
  queue := hcfg ▸ hq
  ports := by rw [hcfg, hblk]; exact h.ports
  position := by rw [hcfg, hseq]; exact h.position
  errOk := h.errOk.congr herr (hseq ▸ rfl) hcfg
  linesOk := h.linesOk.congr hlines (hseq ▸ rfl) (hseq ▸ rfl) (hseq ▸ rfl) hcfg
  dropOk := hdrop

/-! ### The messages and the producers' steps -/

/-- What a message leaves in FB is canonical and within FB_LEN (20_memory R43). -/
theorem exec_keeps_fb {i : Instr} (hc : s.cfg.WellFormed) (hwf : s.fb.wf) (hwithin : s.fb.within (fbLen s.cfg))
    (h : exec i s = .next t) : t.fb.wf ∧ t.fb.within (fbLen s.cfg) := by
  cases i with
  | setPixel x y gray =>
    cases h
    have hp := painted_setPixel hc hwf x.toNat y.toNat gray.toNat
    exact ⟨hp.wf, hp.within hwithin⟩
  | fillPixels x0 y0 x1 y1 gray =>
    cases h
    have hp := painted_fillPixels hc hwf x0.toNat x1.toNat y0.toNat y1.toNat gray.toNat
    exact ⟨hp.wf, hp.within hwithin⟩
  | clear =>
    cases h
    exact ⟨fillWords_wf hwf _ _ _, fillWords_within hwithin _ le_rfl _⟩
  | setBrightness level =>
    cases h
    have hp := painted_brightness hc hwf level.toNat
    exact ⟨hp.wf, hp.within hwithin⟩
  | fullfill level =>
    cases h
    obtain ⟨hwf', hwithin', -⟩ := readWord_planeFills hc hwf (lut s.cfg level.toNat)
    exact ⟨hwf', hwithin' hwithin⟩
  | reservedTag0 | reservedTag6to7 tag | reservedTag8toF tag =>
    cases h
    exact ⟨hwf, hwithin⟩

/-- Taking a word from Q and applying it keeps the invariant (42_sequencer R121). -/
theorem State.Inv.exec {i : Instr} {m : MsgWord} {rest : List MsgWord} (h : s.Inv) (hq : s.q = m :: rest)
    (hexec : exec i { s with q := rest } = .next t) : t.Inv := by
  obtain ⟨hwf, hwithin⟩ := exec_keeps_fb (s := { s with q := rest }) h.cfgOk h.fbWf h.fbWithin hexec
  have hlen : rest.length ≤ s.cfg.qcap := by
    have := h.queue
    rw [hq, List.length_cons] at this
    omega
  obtain ⟨fb, rfl⟩ | rfl := exec_next_cases hexec
  · exact h.of_frame rfl rfl rfl rfl hwf hwithin hlen rfl h.dropOk
  · exact h.of_frame rfl rfl rfl rfl hwf hwithin hlen rfl h.dropOk

theorem State.Inv.enqueue (h : s.Inv) (hq : s.q.length < s.cfg.qcap) (m : MsgWord) : (enqueue m s).Inv :=
  h.of_frame rfl rfl rfl rfl h.fbWf h.fbWithin (by rw [enqueue_q, List.length_append]; exact hq) rfl h.dropOk

/-- A drop is counted, and the count never returns to 0 (10_state R26). -/
theorem recordDrop_dropCount_ne_zero (s : State) : (recordDrop s).dropCount ≠ 0#16 := by
  rw [recordDrop_dropCount]
  split_ifs with h
  · rw [h]
    decide
  · bv_omega

theorem State.Inv.recordDrop (h : s.Inv) : (recordDrop s).Inv :=
  h.of_frame rfl rfl rfl rfl h.fbWf h.fbWithin h.queue rfl (iff_of_true rfl (recordDrop_dropCount_ne_zero s))

theorem State.Inv.setPort (h : s.Inv) (p : Nat) (v : Option MsgWord) : (setPort s p v).Inv :=
  h.of_frame rfl rfl rfl rfl h.fbWf h.fbWithin h.queue List.length_set h.dropOk

theorem State.Inv.statusRead (h : s.Inv) (n : Nat) : (statusRead n s).Inv :=
  h.of_frame rfl rfl rfl rfl h.fbWf h.fbWithin h.queue rfl h.dropOk

theorem State.Inv.popSched (h : s.Inv) : (popSched s).Inv :=
  h.of_frame rfl rfl rfl rfl h.fbWf h.fbWithin h.queue rfl h.dropOk

/-! ### The sequencer's moves -/

/-- ERR is clear while the sequencer runs (10_state R25). -/
theorem State.Inv.err_eq_none (h : s.Inv) (hp : s.seq.phase ≠ .halted) : s.err = .none := h.errOk.halted.2 hp

/-- ERR none goes with every phase but HALTED. -/
theorem ErrLegal.of_none (herr : s.err = .none) (hp : s.seq.phase ≠ .halted) : ErrLegal s where
  halted := iff_of_true herr hp
  kind := .inl herr
  bus := fun h => by rw [herr] at h; cases h

/-- A count below the cap is counted up within its range (42_sequencer R121, R134). -/
theorem State.Inv.countDrained (h : s.Inv) (hp : s.seq.phase = .drain) (hcap : capReached s = false) :
    (countDrained s).Inv := by
  rw [countDrained_eq]
  refine { h with
    position := { h.position with drained0 := fun hne => absurd hp hne, drained := ?_ }
    errOk := h.errOk.congr rfl rfl rfl
    linesOk := h.linesOk.congr rfl rfl rfl rfl rfl }
  have hcap' := capReached_eq_false.1 hcap
  have hrange := h.position.drained
  unfold drainedInRange at hrange ⊢
  cases hd : s.cfg.drainCap with
  | none =>
    rw [hd] at hrange
    simpa [hd] using hrange
  | some n => simpa [hd] using hcap' n hd

/-- The start of a pass (42_sequencer R122). -/
theorem State.Inv.startPass (h : s.Inv) (hp : s.seq.phase = .drain) : (startPass s).Inv :=
  have hrun : s.seq.phase ≠ .halted := by simp [hp]
  { h with
    position := Seq.legal_at_zero h.cfgOk .refresh
    errOk := .of_none (h.err_eq_none hrun) (by simp)
    linesOk :=
      { latch := fun _ => h.linesOk.latch hrun
        clk := fun _ => h.linesOk.clk hrun
        disabled := fun _ hsub => by cases hsub
        enabled := fun _ _ hk => by cases hk } }

theorem State.Inv.yieldStep (h : s.Inv) (hp : s.seq.phase = .yield) : (yieldStep s).Inv :=
  have hrun : s.seq.phase ≠ .halted := by simp [hp]
  { h with
    position := Seq.legal_at_zero h.cfgOk .drain
    errOk := .of_none (h.err_eq_none hrun) (by simp)
    linesOk :=
      { latch := fun _ => h.linesOk.latch hrun
        clk := fun _ => h.linesOk.clk hrun
        disabled := fun hphase => by cases hphase
        enabled := fun hphase => by cases hphase } }

/-! ### Transfers -/

/-- The kinds a transfer can fail with (44_transport R166). -/
theorem failureOf_kind {tr : Transport} {op : TransportOp} {d : Draw} {e : ErrKind} (h : failureOf tr op d = some e) :
    e = .pinError ∨ (e = .busError ∧ tr = .spi) := by
  obtain hnone | ⟨k, hk, hek⟩ := (exists_failureOf_eq_iff tr op (some e)).1 ⟨d, h⟩
  · cases hnone
  obtain rfl := Option.some.inj hek
  cases op with
  | word w =>
    cases tr with
    | bitbang => exact .inl (List.eq_of_mem_replicate (errKinds_bitbangWord w ▸ hk))
    | spi => simpa [errKinds_spiWord, or_comm] using hk
  | oeOff => exact .inl (by simpa [subOps, WireOp.errKind] using hk)
  | oeOn => exact .inl (by simpa [subOps, WireOp.errKind] using hk)

/-- Everywhere a transfer that does not fail can lead (42_sequencer R123 to R125). -/
theorem nextPos_cases (s : State) :
    (s.seq.sub = .words ∧ s.seq.i + 1 < s.cfg.planeLen ∧ nextPos s = { s.seq with i := s.seq.i + 1 }) ∨
    (s.seq.sub = .words ∧ s.cfg.planeLen ≤ s.seq.i + 1 ∧ nextPos s = { s.seq with i := 0, sub := .oeOff }) ∨
    (s.seq.sub = .oeOff ∧ nextPos s = { s.seq with sub := .oeOn }) ∨
    (s.seq.sub = .oeOn ∧ s.seq.k + 1 < s.cfg.nplanes ∧
      nextPos s = { s.seq with k := s.seq.k + 1, i := 0, sub := .words }) ∨
    (s.seq.sub = .oeOn ∧ s.cfg.nplanes ≤ s.seq.k + 1 ∧ nextPos s = ⟨.yield, 0, 0, .words, 0⟩) := by
  cases hsub : s.seq.sub with
  | words =>
    rw [nextPos_words hsub, posAfterWord]
    split_ifs with h
    · exact .inl ⟨rfl, h, rfl⟩
    · exact .inr (.inl ⟨rfl, Nat.not_lt.1 h, rfl⟩)
  | oeOff => exact .inr (.inr (.inl ⟨rfl, nextPos_oeOff hsub⟩))
  | oeOn =>
    rw [nextPos_oeOn hsub, posAfterOeOn]
    split_ifs with h
    · exact .inr (.inr (.inr (.inl ⟨rfl, h, rfl⟩)))
    · exact .inr (.inr (.inr (.inr ⟨rfl, Nat.not_lt.1 h, rfl⟩)))

/-- A move within a pass (42_sequencer R134). -/
theorem Seq.Legal.move {c : Config} {p : Seq} {k i : Nat} {sub : Sub} (h : p.Legal c) (hp : p.phase = .refresh)
    (hk : k < c.nplanes) (hi : i < c.planeLen) (hstrobe : sub ≠ .words → i = 0) :
    ({ p with k := k, i := i, sub := sub } : Seq).Legal c where
  plane := hk
  word := hi
  strobe := hstrobe
  atRest := fun hrest => by simp [hp] at hrest
  drained0 := h.drained0
  drained := h.drained

/-- The next position of a pass is legal. -/
theorem State.Inv.nextPos_legal (h : s.Inv) (hp : s.seq.phase = .refresh) : (nextPos s).Legal s.cfg := by
  have hpos := h.position
  have hlen := planeLen_pos h.cfgOk
  obtain ⟨hsub, hi, hn⟩ | ⟨-, -, hn⟩ | ⟨hsub, hn⟩ | ⟨-, hk, hn⟩ | ⟨-, -, hn⟩ := nextPos_cases s <;> rw [hn]
  · exact hpos.move hp hpos.plane hi fun hne => absurd hsub hne
  · exact hpos.move hp hpos.plane hlen fun _ => rfl
  · exact hpos.move hp hpos.plane hpos.word fun _ => hpos.strobe (by simp [hsub])
  · exact hpos.move hp hk hlen fun _ => rfl
  · exact Seq.legal_at_zero h.cfgOk .yield

/-- The next position is in the pass or in YIELD, not in HALTED. -/
theorem nextPos_not_halted (hp : s.seq.phase = .refresh) : (nextPos s).phase ≠ .halted := by
  obtain ⟨-, -, hn⟩ | ⟨-, -, hn⟩ | ⟨-, hn⟩ | ⟨-, -, hn⟩ | ⟨-, -, hn⟩ := nextPos_cases s <;> simp [hn, hp]

/-- The lines after a transfer that did not fail are those the invariant asks for at the next position (44_transport R161 to R164,
70_reset_and_hazards R215). -/
theorem LinesLegal.next (h : LinesLegal s) (hp : s.seq.phase = .refresh) (d : Draw) (hcfg : t.cfg = s.cfg)
    (hseq : t.seq = nextPos s) (hlines : t.lines = linesAfter s.cfg.transport (dueOp s) d s.lines) : LinesLegal t := by
  have hrun : s.seq.phase ≠ .halted := by simp [hp]
  cases hsub : s.seq.sub with
  | words =>
    obtain ⟨hlatch, hoe, hclk⟩ := linesAfter_word s.cfg.transport
      (readWord s.fb (planeOffset s.cfg s.seq.k + s.seq.i)) d s.lines
    rw [← dueOp_words hsub, ← hlines] at hlatch hoe hclk
    have hnext : (nextPos s).sub ≠ .oeOn ∧ (nextPos s).k = s.seq.k := by
      rw [nextPos_words hsub, posAfterWord]
      split_ifs <;> simp [hsub]
    refine ⟨fun _ => hlatch, fun _ htr => hclk (hcfg ▸ htr), fun _ hon => absurd (hseq ▸ hon) hnext.1,
      fun _ _ hk => hoe.trans (h.enabled hp (by simp [hsub]) ?_)⟩
    rwa [hseq, hnext.2] at hk
  | oeOff =>
    obtain ⟨hoe, hlatch, hkept⟩ := linesAfter_oeOff s.cfg.transport d s.lines
    rw [← dueOp_oeOff hsub, ← hlines] at hoe hlatch hkept
    have hnext : (nextPos s).sub = .oeOn := by rw [nextPos_oeOff hsub]; rfl
    exact ⟨fun _ => hlatch.trans (h.latch hrun),
      fun _ htr => (hkept (hcfg ▸ htr)).2.trans (h.clk hrun (hcfg ▸ htr)), fun _ _ => hoe,
      fun _ hne => absurd (hseq ▸ hnext) hne⟩
  | oeOn =>
    obtain ⟨hoe, hlatch, hkept⟩ := linesAfter_oeOn s.cfg.transport d s.lines
    rw [← dueOp_oeOn hsub, ← hlines] at hoe hlatch hkept
    have hnext : (nextPos s).sub = .words := by
      rw [nextPos_oeOn hsub, posAfterOeOn]
      split_ifs <;> rfl
    refine ⟨fun _ => hlatch.trans (h.latch hrun),
      fun _ htr => (hkept (hcfg ▸ htr)).2.trans (h.clk hrun (hcfg ▸ htr)), fun _ hon => ?_, fun _ _ _ => hoe⟩
    rw [hseq, hnext] at hon
    cases hon

/-- A REFRESH step keeps the invariant, whether its transfer fails or not (42_sequencer R123 to R125, 60_exceptions R183). -/
theorem State.Inv.transferStep (h : s.Inv) (hp : s.seq.phase = .refresh) :
    (transferStep (dueOp s) (nextPos s) s).Inv := by
  have hrun : s.seq.phase ≠ .halted := by simp [hp]
  cases hfail : failureOf s.cfg.transport (dueOp s) (takeDraw s).1 with
  | none =>
    rw [transferStep_of_ok hfail]
    exact { h with
      position := h.nextPos_legal hp
      errOk := .of_none (h.err_eq_none hrun) (nextPos_not_halted hp)
      linesOk := h.linesOk.next hp (takeDraw s).1 rfl rfl rfl }
  | some e =>
    rw [transferStep_of_failure hfail]
    have hkind := failureOf_kind hfail
    exact { h with
      position :=
        { h.position with
          atRest := fun hrest => by simp at hrest
          drained0 := fun _ => h.position.drained0 (by simp [hp]) }
      errOk :=
        { halted := by obtain rfl | ⟨rfl, -⟩ := hkind <;> simp
          kind := .inr (hkind.imp_right And.left)
          bus := fun he => by
            change e = .busError at he
            subst he
            exact (hkind.resolve_left (by decide)).2 }
      linesOk :=
        { latch := fun hne => absurd rfl hne
          clk := fun hne => absurd rfl hne
          disabled := fun hphase => by cases hphase
          enabled := fun hphase => by cases hphase } }

/-- A turn of the sequencer keeps the invariant. -/
theorem State.Inv.sequencerStep (h : s.Inv) (hstep : sequencerStep s = .next t) : t.Inv := by
  obtain ⟨hp, -, rfl⟩ | ⟨m, rest, u, hp, hq, hcap, hexec, rfl⟩ | ⟨hp, rfl⟩ | ⟨hp, rfl⟩ := sequencerStep_cases hstep
  · exact h.startPass hp
  · have hu := exec_next_cases hexec
    refine (h.exec hq hexec).countDrained ?_ ?_ <;> obtain ⟨fb, rfl⟩ | rfl := hu <;> assumption
  · exact h.transferStep hp
  · exact h.yieldStep hp

/-! ### The resets -/

@[simp] theorem restartBlock_fb (s : State) : (restartBlock s).fb = [] := rfl
@[simp] theorem restartBlock_blk (s : State) : (restartBlock s).blk = s.blk := resetLevels_blk s
@[simp] theorem restartBlock_seq (s : State) : (restartBlock s).seq = ⟨.drain, 0, 0, .words, 0⟩ := rfl
@[simp] theorem restartBlock_err (s : State) : (restartBlock s).err = .none := rfl
@[simp] theorem restartBlock_drop (s : State) : (restartBlock s).drop = s.drop := resetLevels_drop s
@[simp] theorem restartBlock_dropCount (s : State) : (restartBlock s).dropCount = s.dropCount := resetLevels_dropCount s
@[simp] theorem restartBlock_badtag (s : State) : (restartBlock s).badtag = s.badtag := resetLevels_badtag s
@[simp] theorem restartBlock_lines (s : State) : (restartBlock s).lines = (resetLevels s).lines := rfl
@[simp] theorem restartBlock_trace (s : State) : (restartBlock s).trace = s.trace := resetLevels_trace s
@[simp] theorem restartBlock_cfg (s : State) : (restartBlock s).cfg = s.cfg := resetLevels_cfg s

/-- The levels of a reset (10_state R28). -/
theorem resetLines_low (tr : Transport) (d : Draw) :
    (resetLines tr d).latch = false ∧ (resetLines tr d).oeEn = false ∧
      (tr = .bitbang → (resetLines tr d).data = false ∧ (resetLines tr d).clk = false) := by
  cases tr with
  | bitbang => exact ⟨rfl, rfl, fun _ => ⟨rfl, rfl⟩⟩
  | spi => exact ⟨rfl, rfl, nofun⟩

/-- Low lines are legal at the start. -/
theorem LinesLegal.of_low (hseq : s.seq = Seq.start) (hlatch : s.lines.latch = false)
    (hclk : s.cfg.transport = .bitbang → s.lines.clk = false) : LinesLegal s where
  latch := fun _ => hlatch
  clk := fun _ => hclk
  disabled := fun hp => by rw [hseq] at hp; cases hp
  enabled := fun hp => by rw [hseq] at hp; cases hp

theorem fb_nil_within (n : Nat) : Memory.within [] n := fun _ he => by cases he

theorem resetLevels_linesLegal (hseq : t.seq = Seq.start) (hlines : t.lines = (resetLevels s).lines)
    (hcfg : t.cfg = s.cfg) : LinesLegal t := by
  obtain ⟨hlatch, -, hlow⟩ := resetLevels_lines s
  exact .of_low hseq (hlines ▸ hlatch) fun htr => by rw [hlines]; exact (hlow (hcfg ▸ htr)).2

theorem State.Inv.resetBlock (h : s.Inv) : (resetBlock s).Inv where
  cfgOk := by rw [resetBlock_cfg]; exact h.cfgOk
  fbWf := Memory.nil_wf
  fbWithin := fb_nil_within _
  queue := Nat.zero_le _
  ports := by rw [resetBlock_blk, resetBlock_cfg, List.length_replicate]
  position := by rw [resetBlock_cfg]; exact Seq.legal_at_zero h.cfgOk .drain
  errOk := .of_none rfl (by simp)
  linesOk := resetLevels_linesLegal rfl rfl (resetBlock_cfg s)
  dropOk := by simp

theorem State.Inv.restartBlock (h : s.Inv) : (restartBlock s).Inv where
  cfgOk := by rw [restartBlock_cfg]; exact h.cfgOk
  fbWf := Memory.nil_wf
  fbWithin := fb_nil_within _
  queue := by rw [restartBlock_cfg, restartBlock_q]; exact h.queue
  ports := by rw [restartBlock_cfg, restartBlock_blk]; exact h.ports
  position := by rw [restartBlock_cfg]; exact Seq.legal_at_zero h.cfgOk .drain
  errOk := .of_none rfl (by simp)
  linesOk := resetLevels_linesLegal rfl rfl (restartBlock_cfg s)
  dropOk := by rw [restartBlock_drop, restartBlock_dropCount]; exact h.dropOk

/-- The state after boot (10_state R38). -/
theorem resetWith_inv {c : Config} (hc : c.WellFormed) : (State.resetWith c).Inv where
  cfgOk := hc
  fbWf := Memory.nil_wf
  fbWithin := fb_nil_within _
  queue := Nat.zero_le _
  ports := List.length_replicate
  position := Seq.legal_at_zero hc .drain
  errOk := .of_none rfl nofun
  linesOk :=
    have hlow := resetLines_low c.transport (Config.freeDraw 0)
    .of_low rfl hlow.1 fun htr => (hlow.2.2 htr).2
  dropOk := iff_of_false Bool.false_ne_true fun h => h rfl

/-! ### The obligations -/

/-- Every agent's step keeps the invariant. -/
theorem State.Inv.agentStep {a : Action} (h : s.Inv) (hstep : agentStep a s = .next t) : t.Inv := by
  cases a with
  | sequencer => exact h.sequencerStep hstep
  | pushNb p m =>
    obtain ⟨-, ⟨hq, rfl⟩ | ⟨-, rfl⟩⟩ := pushNb_cases hstep
    · exact h.enqueue hq m
    · exact h.recordDrop
  | pushBlk p m =>
    obtain ⟨-, rfl⟩ := pushBlk_cases hstep
    exact h.setPort p (some m)
  | pushDone p =>
    obtain ⟨m, -, hq, rfl⟩ := pushDone_cases hstep
    exact (h.enqueue hq m).setPort p none
  | statusRead n =>
    cases hstep
    exact h.statusRead n
  | reset | resetAndRestart =>
    cases hstep
    exact h.resetBlock
  | restart =>
    cases hstep
    exact h.restartBlock
  | reconfigure c => cases hstep

end

/-- Settles O49: a step is the agent step on the state with the schedule popped, and every agent's step keeps the invariant. -/
theorem everyStepKeepsTheStateInvariant : Obligations.EveryStepKeepsTheStateInvariant := by
  unfold Obligations.EveryStepKeepsTheStateInvariant
  exact fun s t h hstep => h.popSched.agentStep hstep

/-- Configuration S is a legal one (95_test_vectors section 0). -/
theorem configS_legal : configS.WellFormed := by decide

/-- Settles O50, by `resetWith_inv`; configuration S is legal. -/
theorem stateInvariantHoldsAtReset : Obligations.StateInvariantHoldsAtReset := by
  unfold Obligations.StateInvariantHoldsAtReset
  exact ⟨resetWith_inv configS_legal, fun c => resetWith_inv⟩

end Sys2Proof.Machine
end

section
/-! PROOFS about pixels and grays (40_framebuffer sections 4 and 6, 41_messages section 1): a pixel that holds a gray reads as that
gray, and every step leaves every pixel of the panel with some gray. -/

namespace Sys2Proof.Machine

/-! ### A pixel's gray -/

section
variable {c : Config} {m m' : Memory}

/-- Row v of a legal gray table has v ones (40_framebuffer R81). -/
theorem countP_lut (hc : c.WellFormed) {v : Nat} (hv : v < 16) : (List.range 16).countP (lut c v) = v := by
  obtain ⟨-, -, -, -, ⟨-, hcount⟩, -⟩ := hc
  exact hcount v hv

/-- With sixteen planes the gray read is the gray held (40_framebuffer R88). -/
theorem pixelGray_of_holds (hc : c.WellFormed) (hn : c.nplanes = 16) {x y v : Nat} (hv : v < 16)
    (h : PixelHolds c m x y v) : pixelGray c m x y = v := by
  have hcount : (List.range 16).countP (fun k => pixelBit c m x y k) = (List.range 16).countP (lut c v) :=
    List.countP_congr fun k hk => by rw [h k (hn ▸ List.mem_range.1 hk)]
  rw [pixelGray, hn, hcount, countP_lut hc hv]
  omega

/-- Every pixel of the panel holds some gray (40_framebuffer R92). -/
def AllGray (c : Config) (m : Memory) : Prop :=
  ∀ x y, onPanel c x y → ∃ v, v < 16 ∧ PixelHolds c m x y v

theorem pixelInv_iff (s : State) : PixelInv s ↔ AllGray s.cfg s.fb := Iff.rfl

/-- Painting grays keeps every pixel a gray. -/
theorem Painted.allGray {region : Nat → Nat → Prop} {gray : Nat → Nat → Nat} (hp : Painted c m m' region gray)
    (hgray : ∀ x y, gray x y < 16) (h : AllGray c m) : AllGray c m' := by
  intro x y hon
  by_cases hr : region x y
  · exact ⟨gray x y, hgray x y, fun k hk => hp.inside x y k hon hk hr⟩
  · obtain ⟨v, hv, hold⟩ := h x y hon
    exact ⟨v, hv, fun k hk => (hp.beside x y k hon hk hr).trans (hold k hk)⟩

/-- The empty frame buffer holds gray 0 everywhere. -/
theorem allGray_nil (hc : c.WellFormed) : AllGray c [] := by
  refine fun x y _ => ⟨0, by decide, fun k _ => ?_⟩
  rw [lut_zero hc]
  exact BitVec.getLsbD_zero

/-- Planes filled with a row of the gray table show that gray everywhere (41_messages R104). -/
theorem allGray_planeFills (hc : c.WellFormed) (hm : m.wf) {v : Nat} (hv : v < 16) :
    AllGray c (forRange 0 c.nplanes (fun k acc => planeFill c k (lut c v k) acc) m) := by
  refine fun x y hon => ⟨v, hv, fun k hk => ?_⟩
  obtain ⟨hwi, hbo⟩ := mapAt_range hc hon
  rw [pixelBit, pixelAddr, readWord_planeFills_plane hc hm (lut c v) hk hwi]
  cases lut c v k with
  | true => exact BitVec.getLsbD_allOnes.trans (decide_eq_true hbo)
  | false => exact BitVec.getLsbD_zero

end

/-- A 4-bit field is a gray. -/
theorem toNat_lt_sixteen (v : BitVec 4) : v.toNat < 16 := v.isLt

/-- Every message keeps every pixel a gray (40_framebuffer section 6). -/
theorem exec_allGray {i : Instr} {s t : State} (hc : s.cfg.WellFormed) (hm : s.fb.wf) (hw : s.fb.within (fbLen s.cfg))
    (h : AllGray s.cfg s.fb) (hexec : exec i s = .next t) : AllGray s.cfg t.fb := by
  cases i with
  | setPixel x y gray =>
    cases hexec
    exact (painted_setPixel hc hm _ _ _).allGray (fun _ _ => toNat_lt_sixteen gray) h
  | fillPixels x0 y0 x1 y1 gray =>
    cases hexec
    exact (painted_fillPixels hc hm _ _ _ _ _).allGray (fun _ _ => toNat_lt_sixteen gray) h
  | clear =>
    rw [exec_clear, clearAll_eq_nil hm hw] at hexec
    cases hexec
    exact allGray_nil hc
  | setBrightness level =>
    cases hexec
    exact (painted_brightness hc hm _).allGray (fun x y => Nat.lt_succ_of_le
      (rescaled_le (pixelGray_le _ _ _ _) (Nat.le_of_lt_succ (toNat_lt_sixteen level)))) h
  | fullfill level =>
    cases hexec
    exact allGray_planeFills hc hm (toNat_lt_sixteen level)
  | reservedTag0 | reservedTag6to7 tag | reservedTag8toF tag =>
    cases hexec
    exact h

/-- FB changes by a message or a reset only, so every agent's step keeps every pixel a gray. -/
theorem agentStep_pixelInv {a : Action} {s t : State} (hs : s.Inv) (h : PixelInv s) (hstep : agentStep a s = .next t) :
    PixelInv t := by
  have hcfg := agentStep_cfg hstep
  rw [pixelInv_iff] at h ⊢
  rw [hcfg]
  by_cases hfb : t.fb = s.fb
  · rwa [hfb]
  obtain ⟨rfl, hp⟩ | hreset := agentStep_writes_fb hstep hfb
  · obtain ⟨-, -, rfl⟩ | ⟨m, rest, u, -, -, -, hexec, rfl⟩ | ⟨hp', -⟩ | ⟨hp', -⟩ := sequencerStep_cases hstep
    · exact h
    · rw [countDrained_fb]
      exact exec_allGray (s := { s with q := rest }) hs.cfgOk hs.fbWf hs.fbWithin h hexec
    · cases hp.symm.trans hp'
    · cases hp.symm.trans hp'
  · have hnil : t.fb = [] := by
      obtain ⟨-, rfl⟩ | ⟨-, rfl⟩ := agentStep_resetOrRestart hreset hstep <;> rfl
    rw [hnil]
    exact allGray_nil hs.cfgOk

/-! ### The pass shows grays as numbers of planes (42_sequencer section 2) -/

/-- A list made of pieces of one length `n`, read at the `i`-th place of the `k`-th piece. -/
theorem getElem?_flatMap_range {α : Type} {f : Nat → List α} {n N k i : Nat} (hf : ∀ k, (f k).length = n) (hk : k < N)
    (hi : i < n) : ((List.range N).flatMap f)[k * n + i]? = (f k)[i]? := by
  induction N with
  | zero => omega
  | succ N ih =>
    have hlen : ((List.range N).flatMap f).length = N * n := by simp [List.length_flatMap, hf]
    rw [List.range_succ, List.flatMap_append, List.flatMap_singleton]
    obtain hk | rfl := Nat.lt_succ_iff_lt_or_eq.1 hk
    · have : (k + 1) * n ≤ N * n := Nat.mul_le_mul_right _ hk
      rw [Nat.succ_mul] at this
      rw [List.getElem?_append_left (by omega), ih hk]
    · rw [List.getElem?_append_right (by omega), hlen, Nat.add_sub_cancel_left]

@[simp] theorem length_planeEvents (c : Config) (m : Memory) (k : Nat) :
    (planeEvents c m k).length = c.planeLen + 2 := by
  simp [planeEvents]

@[simp] theorem length_passEvents (c : Config) (m : Memory) :
    (passEvents c m).length = c.nplanes * (c.planeLen + 2) := by
  simp [passEvents, List.length_flatMap]

/-- The events of a pass, plane by plane (42_sequencer R128). -/
theorem getElem?_passEvents (c : Config) (m : Memory) {k j : Nat} (hk : k < c.nplanes) (hj : j < c.planeLen + 2) :
    (passEvents c m)[k * (c.planeLen + 2) + j]? = (planeEvents c m k)[j]? :=
  getElem?_flatMap_range (length_planeEvents c m) hk hj

/-- The words of a plane stand before its strobe (40_framebuffer R89). -/
theorem getElem?_planeEvents_word (c : Config) (m : Memory) (k : Nat) {i : Nat} (hi : i < c.planeLen) :
    (planeEvents c m k)[i]? = some (.word (readWord m (planeOffset c k + i))) := by
  rw [planeEvents, List.getElem?_append_left (by simpa using hi)]
  simp [hi]

/-- The strobe of a plane follows its words (40_framebuffer R89). -/
theorem getElem?_planeEvents_strobe (c : Config) (m : Memory) (k j : Nat) :
    (planeEvents c m k)[c.planeLen + j]? = [TransportEvent.oeOff, .oeOn][j]? := by
  rw [planeEvents, List.getElem?_append_right (by simp)]
  simp

/-! ### The obligations -/

/-- Settles O51: a step is the agent step on the state with the schedule popped (`agentStep_pixelInv`). -/
theorem everyStepKeepsEveryPixelAGray : Obligations.EveryStepKeepsEveryPixelAGray := by
  unfold Obligations.EveryStepKeepsEveryPixelAGray
  exact fun s t hs h hstep => agentStep_pixelInv hs.popSched h hstep

/-- Settles O52: after reset FB is empty (`allGray_nil`). -/
theorem everyPixelIsAGrayAtReset : Obligations.EveryPixelIsAGrayAtReset := by
  unfold Obligations.EveryPixelIsAGrayAtReset
  exact fun c hc => allGray_nil hc

/-- Settles O14, by `exec_cases`. -/
theorem everyMessageCompletesAndTouchesOnlyFbOrBadtag : Obligations.EveryMessageCompletesAndTouchesOnlyFbOrBadtag := by
  unfold Obligations.EveryMessageCompletesAndTouchesOnlyFbOrBadtag
  intro i s
  obtain ⟨fb, h⟩ | h := exec_cases i s
  · exact ⟨_, h, .inl rfl⟩
  · exact ⟨_, h, .inr rfl⟩

/-- Settles O16: the pixel holds the gray written (`painted_setPixel`), so it reads as it (`pixelGray_of_holds`). -/
theorem setPixelReadsBack : Obligations.SetPixelReadsBack := by
  unfold Obligations.SetPixelReadsBack
  intro s x y gray hs hn hon
  have hp := painted_setPixel hs.cfgOk hs.fbWf x.toNat y.toNat gray.toNat
  have hold : PixelHolds s.cfg (setPixelGray s.cfg x.toNat y.toNat gray.toNat s.fb) x.toNat y.toNat gray.toNat :=
    fun k hk => hp.inside _ _ k hon hk ⟨rfl, rfl⟩
  refine ⟨_, exec_setPixel x y gray s, pixelGray_of_holds hs.cfgOk hn (toNat_lt_sixteen gray) hold, ?_⟩
  exact List.map_congr_left fun k hk => hold k (hn ▸ List.mem_range.1 hk)

/-- Settles O17: each pixel's gray g becomes g*15 div 15 = g, so its bits stay the row of g, and the other bits are kept
(`painted_brightness`). -/
theorem fullBrightnessChangesNothing : Obligations.FullBrightnessChangesNothing := by
  unfold Obligations.FullBrightnessChangesNothing
  intro s hs h hn
  have hp := painted_brightness hs.cfgOk hs.fbWf (15#4).toNat
  have hfb := memory_ext_pixels hp.wf hs.fbWf (fun x y k hon hk => ?_) hp.others
  · rw [exec_setBrightness, hfb]
  obtain ⟨v, hv, hold⟩ := h x y hon
  rw [hp.inside x y k hon hk ⟨⟨Nat.zero_le x, hon.1⟩, Nat.zero_le y, hon.2⟩, pixelGray_of_holds hs.cfgOk hn hv hold,
    hold k hk]
  congr 1
  exact Nat.mul_div_cancel v (by decide)

/-- Settles O25: the word of the pixel in the events of plane k is FB's (`getElem?_passEvents`), its bit is the table's, and row v
has v ones (`countP_lut`). -/
theorem grayIsTheNumberOfPlanesShown : Obligations.GrayIsTheNumberOfPlanesShown := by
  unfold Obligations.GrayIsTheNumberOfPlanesShown
  intro s x y v hs hn hon hv hold
  obtain ⟨hwi, -⟩ := mapAt_range hs.cfgOk hon
  refine (List.countP_congr fun k hk => ?_).trans (countP_lut hs.cfgOk hv)
  have hk : k < s.cfg.nplanes := hn ▸ List.mem_range.1 hk
  rw [getElem?_passEvents s.cfg s.fb hk (by omega), getElem?_planeEvents_word s.cfg s.fb k hwi]
  exact Bool.eq_iff_iff.1 (hold k hk)

/-- What boot leaves meets both invariants, and every step keeps both. -/
theorem Reachable.invariants {s : State} (h : Reachable s) : s.Inv ∧ PixelInv s := by
  induction h with
  | boot c sched draws hc =>
    have hinv := resetWith_inv hc
    exact ⟨hinv.of_frame rfl rfl rfl rfl hinv.fbWf hinv.fbWithin hinv.queue rfl hinv.dropOk, allGray_nil hc⟩
  | step s t _ hstep ih =>
    exact ⟨everyStepKeepsTheStateInvariant s t ih.1 hstep, everyStepKeepsEveryPixelAGray s t ih.1 ih.2 hstep⟩

/-- Settles O53, by induction on the steps after boot (`Reachable.invariants`). -/
theorem everyReachableStateIsLegal : Obligations.EveryReachableStateIsLegal := by
  unfold Obligations.EveryReachableStateIsLegal
  exact fun s => Reachable.invariants

end Sys2Proof.Machine
end

section
/-! PROOFS about the bits on the wire and the record of a transfer (44_transport sections 1 and 2). -/

namespace Sys2Proof.Machine

/-! ### The bits of a bit-banged word -/

/-- From a low clock each bit is put on the data line and clocked once, and the clock is low again (44_transport R161). -/
theorem wireBits_bitbangBits (bits : List Bool) (d : Bool) (rest : List WireOp) (hrest : ∀ d, wireBits d false rest = []) :
    wireBits d false (bits.flatMap bitbangBit ++ rest) = bits := by
  induction bits generalizing d with
  | nil => exact hrest d
  | cons b bits ih => exact congrArg (b :: ·) (ih b)

theorem wireBits_bitbangWord (w : Word) (d : Bool) : wireBits d false (subOps .bitbang (.word w)) = wordBits w :=
  wireBits_bitbangBits (wordBits w) d latchPulse fun _ => rfl

/-- The bits of a word raise no latch. -/
theorem countP_latch_bitbangBits (bits : List Bool) :
    (bits.flatMap bitbangBit).countP (fun o => o = .pin .latch true) = 0 := by
  induction bits with
  | nil => rfl
  | cons b bits ih =>
    rw [List.flatMap_cons, List.countP_append, ih]
    rfl

/-! ### The bits of a word over SPI -/

/-- The high byte's bits, then the low byte's, are the word's (44_transport R162). -/
theorem wireBits_spiWord (w : Word) (d c : Bool) : wireBits d c (subOps .spi (.word w)) = wordBits w := by
  show (List.range 8).map (fun n => (w.extractLsb' 8 8).getLsbD (7 - n)) ++
    ((List.range 8).map (fun n => (w.extractLsb' 0 8).getLsbD (7 - n)) ++ []) = (List.range (8 + 8)).map _
  rw [List.append_nil, List.range_add, List.map_append, List.map_map]
  congr 1 <;> refine List.map_congr_left fun n hn => ?_
  · have hn := List.mem_range.1 hn
    rw [BitVec.getLsbD_extractLsb', decide_eq_true (by omega), Bool.true_and]
    congr 1
    omega
  · have hn := List.mem_range.1 hn
    rw [BitVec.getLsbD_extractLsb', decide_eq_true (by omega), Bool.true_and, Function.comp_apply]
    congr 1
    omega

/-- The two bytes as numbers. -/
theorem byte_as_number (w : Word) :
    w.extractLsb' 8 8 = BitVec.ofNat 8 (w.toNat / 256) ∧ w.extractLsb' 0 8 = BitVec.ofNat 8 (w.toNat % 256) := by
  constructor <;> apply BitVec.eq_of_toNat_eq
  · simp [BitVec.extractLsb'_toNat, Nat.shiftRight_eq_div_pow]
  · simp [BitVec.extractLsb'_toNat]

/-- A failed byte write is BusError, a failed latch write PinError, and an index past them fails none (44_transport R166, log 4). -/
theorem failureOf_spiWord (w : Word) {n : Nat} {d : Draw} (hd : d.failAt = some n) :
    failureOf .spi (.word w) d = if n < 2 then some .busError else if n < 4 then some .pinError else none := by
  rw [failureOf, hd, Option.bind_some, ← List.getElem?_map, errKinds_spiWord]
  match n with
  | 0 | 1 | 2 | 3 => rfl
  | n + 4 => simp

/-! ### What a transfer leaves -/

section
variable {s : State} {op : TransportOp}

/-- A transfer that returns ok (44_transport R160). -/
theorem xfer_of_ok (h : (xfer op s).1 = none) :
    (xfer op s).2.trace = s.trace ++ [op.event] ∧ (xfer op s).2.wire = s.wire ++ subOps s.cfg.transport op ∧
      (xfer op s).2.lines = linesAfter s.cfg.transport op (takeDraw s).1 s.lines ∧ (xfer op s).2.cfg = s.cfg := by
  have h' : failureOf (takeDraw s).2.cfg.transport op (takeDraw s).1 = none := by rwa [takeDraw_cfg]
  simp [xfer, transferred_of_ok h']

/-- A transfer that fails (44_transport R166, R167). -/
theorem xfer_of_failure {e : ErrKind} (h : (xfer op s).1 = some e) :
    (xfer op s).2.trace = s.trace ++ [.fail e] ∧
      (xfer op s).2.wire = s.wire ++ (subOps s.cfg.transport op).take ((takeDraw s).1.failAt.getD 0) ∧
      (xfer op s).2.lines = (takeDraw s).1.lines := by
  have h' : failureOf (takeDraw s).2.cfg.transport op (takeDraw s).1 = some e := by rwa [takeDraw_cfg]
  simp [xfer, transferred_of_failure h']

/-- A draw that names no sub-operation fails none (44_transport R166). -/
theorem failureOf_eq_none_of_ok {tr : Transport} {d : Draw} (h : drawOk d) : failureOf tr op d = none := by
  rw [failureOf, h, Option.bind_none]

/-- A draw that names an index past the last sub-operation fails none (log 4). -/
theorem failureOf_eq_none_of_le {tr : Transport} {d : Draw} {n : Nat} (hd : d.failAt = some n)
    (hn : (subOps tr op).length ≤ n) : failureOf tr op d = none := by
  rw [failureOf, hd, Option.bind_some, List.getElem?_eq_none hn, Option.map_none]

end

/-! ### The obligations -/

/-- Settles O28: both forms shift the word's bits in wire order (`wireBits_bitbangWord`, `wireBits_spiWord`), and only the latch
pulse raises latch. -/
theorem bothWireFormsShiftTheSameBits : Obligations.BothWireFormsShiftTheSameBits := by
  unfold Obligations.BothWireFormsShiftTheSameBits
  refine fun w d c => ⟨wireBits_bitbangWord w d, (wireBits_bitbangWord w d).trans (wireBits_spiWord w d c).symm, ?_, rfl⟩
  show ((wordBits w).flatMap bitbangBit ++ latchPulse).countP _ = 1
  rw [List.countP_append, countP_latch_bitbangBits]
  rfl

/-- Settles O27: the bytes by `byte_as_number`, the bits by `wireBits_spiWord`, the failures by `failureOf_spiWord`. -/
theorem spiWordIsTwoBytesThenLatch : Obligations.SpiWordIsTwoBytesThenLatch := by
  unfold Obligations.SpiWordIsTwoBytesThenLatch
  refine fun w d c => ⟨?_, wireBits_spiWord w d c, fun n dr => failureOf_spiWord w⟩
  obtain ⟨hhigh, hlow⟩ := byte_as_number w
  rw [← hhigh, ← hlow]
  rfl

/-- Settles O30, by `xfer_of_ok` and `xfer_of_failure`. -/
theorem transferRecordsWhatHappened : Obligations.TransferRecordsWhatHappened := by
  unfold Obligations.TransferRecordsWhatHappened
  refine fun s op => ⟨fun h => ?_, fun e h => (xfer_of_failure h).1, fun n => failureOf_eq_none_of_le, failureOf_eq_none_of_ok,
    fun n o hd ho => ?_⟩
  · obtain ⟨htrace, hwire, hlines, -⟩ := xfer_of_ok h
    exact ⟨htrace, hwire, hlines⟩
  · have hfail : (xfer op s).1 = some o.errKind := failureOf_of_getElem? hd ho
    obtain ⟨htrace, hwire, hlines⟩ := xfer_of_failure hfail
    rw [hd, Option.getD_some] at hwire
    exact ⟨hfail, htrace, hwire, hlines⟩

/-- An output-enable transfer that returns ok drives oe_en to `on` and, under BITBANG, no other line. -/
theorem xfer_oe {s : State} {op : TransportOp} {on : Bool} {l : Lines}
    (hl : linesAfter s.cfg.transport op (takeDraw s).1 s.lines = l)
    (hdrive : l.oeEn = on ∧ l.latch = s.lines.latch ∧
      (s.cfg.transport = .bitbang → l.data = s.lines.data ∧ l.clk = s.lines.clk)) (hok : (xfer op s).1 = none) :
    (xfer op s).2.lines.oeEn = on ∧ (xfer op s).2.lines.latch = s.lines.latch ∧
      (s.cfg.transport = .bitbang → (xfer op s).2.lines = { s.lines with oeEn := on }) ∧
      oePin (xfer op s).2 = (on != s.cfg.oeActiveLow) := by
  obtain ⟨-, -, hlines, hcfg⟩ := xfer_of_ok hok
  obtain ⟨hoe, hlatch, hkept⟩ := hdrive
  rw [oePin, hcfg, hlines, hl, hoe]
  refine ⟨rfl, hlatch, fun htr => ?_, rfl⟩
  obtain ⟨hdata, hclk⟩ := hkept htr
  show l = ⟨s.lines.data, s.lines.clk, s.lines.latch, on⟩
  rw [← hdata, ← hclk, ← hlatch, ← hoe]

/-- Settles O31, by `xfer_oe` with the lines of `linesAfter_oeOff` and `linesAfter_oeOn`. -/
theorem outputEnableIsOnePinWrite : Obligations.OutputEnableIsOnePinWrite := by
  unfold Obligations.OutputEnableIsOnePinWrite
  refine ⟨fun tr => ⟨rfl, rfl⟩, fun s hok => ?_, fun s hok => ?_⟩
  · simpa using xfer_oe rfl (linesAfter_oeOff _ _ _) hok
  · simpa using xfer_oe rfl (linesAfter_oeOn _ _ _) hok

end Sys2Proof.Machine
end

section
/-! PROOFS about boot, RESTART and the machine's own step (70_reset_and_hazards, 42_sequencer section 1): who has the turn (log 3),
and what the step of the sequencer's turn in DRAIN is. -/

namespace Sys2Proof.Machine

/-! ### The scheduled step (log 3) -/

section
variable {s : State}

theorem chosenAction_of_nil (h : s.sched = []) : chosenAction s = .sequencer := by rw [chosenAction, h]

theorem chosenAction_of_cons {a : Action} {rest : List Action} (h : s.sched = a :: rest) : chosenAction s = a := by
  rw [chosenAction, h]

theorem popSched_of_nil (h : s.sched = []) : popSched s = s := by
  rw [popSched, h, List.tail_nil, ← h]

theorem popSched_of_cons {a : Action} {rest : List Action} (h : s.sched = a :: rest) :
    popSched s = { s with sched := rest } := by
  rw [popSched, h, List.tail_cons]

theorem step_of_nil (h : s.sched = []) : step s = agentStep .sequencer s := by
  rw [step, chosenAction_of_nil h, popSched_of_nil h]

theorem step_of_cons {a : Action} {rest : List Action} (h : s.sched = a :: rest) :
    step s = agentStep a { s with sched := rest } := by
  rw [step, chosenAction_of_cons h, popSched_of_cons h]

/-- A message at the head of Q is applied on the sequencer's turn in DRAIN below the cap, and counted (42_sequencer R121). -/
theorem step_drain {m : MsgWord} {rest : List MsgWord} (hturn : chosenAction s = .sequencer) (hp : s.seq.phase = .drain)
    (hq : s.q = m :: rest) (hcap : ∀ n, s.cfg.drainCap = some n → s.seq.drained < n) :
    ∃ t, exec (decode m) { popSched s with q := rest } = .next t ∧ t.seq = s.seq ∧
      step s = .next { t with
        seq := { t.seq with drained := if s.cfg.drainCap = none then t.seq.drained else t.seq.drained + 1 } } := by
  obtain ⟨t, hexec, hstep, -, hseq⟩ := drainAppliesTheHeadOfTheQueue (popSched s) m rest hp hq hcap
  exact ⟨t, hexec, hseq, by rw [step, hturn]; exact hstep⟩

/-! ### The placed word (log 15) -/

/-- After the turn is taken, the state with the word placed is the state with that word at the head of Q, in DRAIN. -/
theorem popSched_withFetchWord (s : State) (nbits w : Nat) :
    popSched (s.withFetchWord nbits w) =
      { s with q := BitVec.ofNat 40 (w % 2 ^ nbits) :: s.q.tail, seq := ⟨.drain, 0, 0, .words, 0⟩ } := by
  unfold popSched State.withFetchWord
  cases h : s.sched <;> simp [Seq.start]

theorem chosenAction_withFetchWord (s : State) (nbits w : Nat) :
    chosenAction (s.withFetchWord nbits w) = .sequencer := by
  unfold chosenAction State.withFetchWord
  cases h : s.sched <;> rfl

/-- The table's word is decoded as a message word. -/
theorem decode_of_decodeTableWord {nbits w : Nat} {i : Instr} (h : decodeTableWord nbits w = some i) :
    decode (BitVec.ofNat 40 (w % 2 ^ nbits)) = i := by
  unfold decodeTableWord decodeNat at h
  split_ifs at h
  · exact Option.some.inj h
  · cases h

end

/-! ### The state after reset -/

/-- Every port is free after reset (10_state R38). -/
theorem portSlot_resetWith {c : Config} {p : Nat} (hp : 1 ≤ p) (hp' : p ≤ c.nprod) :
    portSlot (State.resetWith c) p = some none := by
  show (if p = 0 then none else (List.replicate c.nprod none)[p - 1]? : Option (Option MsgWord)) = _
  rw [if_neg (by omega), List.getElem?_replicate_of_lt (by omega)]

/-- DRAIN_CAP is not 0 in a legal configuration (00_scope R13). -/
theorem drainCap_pos {c : Config} (hc : c.WellFormed) {n : Nat} (h : c.drainCap = some n) : 0 < n := by
  obtain ⟨-, -, -, -, -, -, hcap, -⟩ := hc
  exact hcap n h

/-- A pass over the empty frame buffer shows 0x0000 words only (70_reset_and_hazards R205). -/
theorem mem_passEvents_nil {c : Config} {e : TransportEvent} (h : e ∈ passEvents c []) :
    e = .word 0x0000#16 ∨ e = .oeOff ∨ e = .oeOn := by
  obtain ⟨k, -, h⟩ := List.mem_flatMap.1 h
  obtain h | h := List.mem_append.1 h
  · obtain ⟨i, -, rfl⟩ := List.mem_map.1 h
    exact .inl rfl
  · exact .inr (by simpa using h)

/-! ### The obligations -/

/-- Settles O42: RESTART's effect on each field by the `restartBlock_` lemmas. -/
theorem restartKeepsTheQueue : Obligations.RestartKeepsTheQueue := by
  unfold Obligations.RestartKeepsTheQueue
  intro s
  obtain ⟨hlatch, hoe, hlow⟩ := resetLevels_lines s
  exact ⟨_, rfl, rfl, rfl, fun _ => rfl, hlatch, hoe, hlow, restartBlock_q s, restartBlock_blk s, restartBlock_drop s,
    restartBlock_dropCount s, restartBlock_badtag s, restartBlock_trace s, restartBlock_cfg s⟩

/-- Settles O43: the values are those `State.resetWith` names; the ports by `portSlot_resetWith`, the lines by `resetLines_low`. -/
theorem resetStateHasTheResetValues : Obligations.ResetStateHasTheResetValues := by
  unfold Obligations.ResetStateHasTheResetValues
  refine ⟨rfl, fun c => ?_⟩
  obtain ⟨hlatch, hoe, hlow⟩ := resetLines_low c.transport (Config.freeDraw 0)
  exact ⟨fun _ => rfl, rfl, fun p => portSlot_resetWith, rfl, rfl, rfl, rfl, rfl, hlatch, hoe, hlow, rfl⟩

/-- Settles O44: boot decides `WellFormed`, and no agent's step changes the configuration (`agentStep_cfg`). -/
theorem configurationIsFixedAtBoot : Obligations.ConfigurationIsFixedAtBoot := by
  unfold Obligations.ConfigurationIsFixedAtBoot
  exact ⟨fun c hc => if_pos hc, fun c hc => if_neg hc, fun c s => rfl, fun s t h => agentStep_cfg (s := popSched s) h⟩

/-- Settles O45, by `step_of_nil` and `step_of_cons`. -/
theorem stepIsTheScheduledAgentStep : Obligations.StepIsTheScheduledAgentStep := by
  unfold Obligations.StepIsTheScheduledAgentStep
  exact ⟨fun s => step_of_nil, fun s a rest => step_of_cons⟩

/-- Settles O46, by `step_drain`. -/
theorem stepRunsTheDecodedMessage : Obligations.StepRunsTheDecodedMessage := by
  unfold Obligations.StepRunsTheDecodedMessage
  intro s m rest hturn hp hq hcap
  obtain ⟨t, hexec, -, hstep⟩ := step_drain hturn hp hq hcap
  exact ⟨t, hexec, hstep⟩

/-- Settles O47: the placed word stands at the head of Q with the sequencer's turn next in DRAIN, below the cap (`step_drain`). -/
theorem placedWordIsRunNext : Obligations.PlacedWordIsRunNext := by
  unfold Obligations.PlacedWordIsRunNext
  intro s nbits w i hc hdecode
  obtain ⟨t, hexec, hseq, hstep⟩ := step_drain (chosenAction_withFetchWord s nbits w) rfl rfl
    fun n hn => drainCap_pos hc hn
  rw [popSched_withFetchWord, decode_of_decodeTableWord hdecode] at hexec
  refine ⟨t, hexec, hstep.trans ?_⟩
  rw [hseq]
  rfl

/-- Settles O48: Q is empty after reset, so the first turn starts a pass; a push goes into the empty Q, and the turn after it is
`step_drain`. -/
theorem firstStepAfterResetStartsAPass : Obligations.FirstStepAfterResetStartsAPass := by
  unfold Obligations.FirstStepAfterResetStartsAPass
  intro c hc
  have hoe := (resetLines_low c.transport (Config.freeDraw 0)).2.1
  refine ⟨rfl, hoe, fun e => mem_passEvents_nil, fun p m hp hp' => ⟨?_, ?_⟩⟩
  · obtain ⟨-, -, -, -, -, ⟨hroom, -⟩, -⟩ := hc
    have hroom : (State.resetWith c).q.length < (State.resetWith c).cfg.qcap := hroom
    rw [step_of_cons rfl]
    exact (pushNb_of_free (portSlot_resetWith hp hp') m).trans (by rw [if_pos hroom]; rfl)
  · obtain ⟨t, hexec, hseq, hstep⟩ := step_drain (s := { State.resetWith c with q := [m] }) rfl rfl rfl
      fun n hn => drainCap_pos hc hn
    refine ⟨t, hexec, hstep.trans ?_⟩
    rw [hseq]
    rfl

end Sys2Proof.Machine
end

section
/-! PROOFS about a whole refresh pass (42_sequencer sections 1 and 2). A position of a pass is numbered by the events before it
(`passIndex`): the transfer due there is the event of that number, and the next position has the next number. A run is followed
through the states of the pass (`PassAt`), over the sequencer's turns and the steps of the other agents between them. -/

namespace Sys2Proof.Machine

/-! ### The positions of a pass by number -/

/-- The number of events a pass has emitted at a position of it. -/
def passIndex (c : Config) (p : Seq) : Nat :=
  p.k * (c.planeLen + 2) +
    match p.sub with
    | .words => p.i
    | .oeOff => c.planeLen
    | .oeOn => c.planeLen + 1

/-- The number of events of a pass (42_sequencer R128). -/
abbrev passLength (c : Config) : Nat := c.nplanes * (c.planeLen + 2)

theorem passIndex_lt {c : Config} {p : Seq} (h : p.Legal c) : passIndex c p < passLength c := by
  have hword := h.word
  have hplane : (p.k + 1) * (c.planeLen + 2) ≤ passLength c := Nat.mul_le_mul_right _ h.plane
  rw [Nat.succ_mul] at hplane
  unfold passIndex
  cases p.sub <;> simp only <;> omega

section
variable {s : State}

/-- The transfer that is due is the event of the position's number (42_sequencer R128). -/
theorem getElem?_passEvents_passIndex (h : s.seq.Legal s.cfg) :
    (passEvents s.cfg s.fb)[passIndex s.cfg s.seq]? = some (dueOp s).event := by
  have hword := h.word
  unfold passIndex
  cases hsub : s.seq.sub with
  | words =>
    rw [dueOp_words hsub, getElem?_passEvents _ _ h.plane (by simp only; omega)]
    exact getElem?_planeEvents_word _ _ _ hword
  | oeOff =>
    rw [dueOp_oeOff hsub, getElem?_passEvents _ _ h.plane (by simp only; omega)]
    exact getElem?_planeEvents_strobe _ _ _ 0
  | oeOn =>
    rw [dueOp_oeOn hsub, getElem?_passEvents _ _ h.plane (by simp only; omega)]
    exact getElem?_planeEvents_strobe _ _ _ 1

/-- A transfer that does not fail leads to the next position of the pass, or from the last one to YIELD. -/
theorem passIndex_nextPos (h : s.seq.Legal s.cfg) (hp : s.seq.phase = .refresh) :
    ((nextPos s).phase = .refresh ∧ passIndex s.cfg (nextPos s) = passIndex s.cfg s.seq + 1) ∨
    (nextPos s = ⟨.yield, 0, 0, .words, 0⟩ ∧ passIndex s.cfg s.seq + 1 = passLength s.cfg) := by
  have hword := h.word
  have hplane := h.plane
  obtain ⟨hsub, -, hn⟩ | ⟨hsub, hlast, hn⟩ | ⟨hsub, hn⟩ | ⟨hsub, -, hn⟩ | ⟨hsub, hlast, hn⟩ := nextPos_cases s
  · exact .inl ⟨by rw [hn]; exact hp, by simp only [hn, passIndex, hsub]; omega⟩
  · exact .inl ⟨by rw [hn]; exact hp, by simp only [hn, passIndex, hsub]; omega⟩
  · exact .inl ⟨by rw [hn]; exact hp, by simp only [hn, passIndex, hsub]; omega⟩
  · exact .inl ⟨by rw [hn]; exact hp, by simp only [hn, passIndex, hsub, Nat.succ_mul]; omega⟩
  · have hk : s.cfg.nplanes = s.seq.k + 1 := by omega
    refine .inr ⟨hn, ?_⟩
    simp only [passLength, passIndex, hsub, hk, Nat.succ_mul]
    omega

/-! ### A transfer with a draw that fails nothing -/

theorem takeDraw_of_cons {d : Draw} {rest : List Draw} (h : s.draws = d :: rest) :
    takeDraw s = (d, { s with draws := rest }) := by
  rw [takeDraw, h]

/-- The sequencer's turn in REFRESH when the next listed draw fails nothing. -/
theorem sequencerStep_refresh_ok {d : Draw} {rest : List Draw} (hp : s.seq.phase = .refresh) (hd : s.draws = d :: rest)
    (hok : drawOk d) :
    ∃ t, sequencerStep s = .next t ∧ t.seq = nextPos s ∧ t.trace = s.trace ++ [(dueOp s).event] ∧ t.draws = rest ∧
      t.err = s.err ∧ t.fb = s.fb ∧ t.q = s.q ∧ t.cfg = s.cfg ∧ t.sched = s.sched := by
  have hfail : failureOf s.cfg.transport (dueOp s) (takeDraw s).1 = none := by
    rw [takeDraw_of_cons hd]
    exact failureOf_eq_none_of_ok hok
  refine ⟨_, sequencerStep_refresh hp, ?_⟩
  rw [transferStep_of_ok hfail, takeDraw_of_cons hd]
  exact ⟨rfl, rfl, rfl, rfl, rfl, rfl, rfl, rfl⟩

theorem State.Inv.withSched (h : s.Inv) (sched : List Action) : ({ s with sched := sched } : State).Inv :=
  h.of_frame rfl rfl rfl rfl h.fbWf h.fbWithin h.queue rfl h.dropOk

end

/-! ### The states of a pass -/

/-- `u` is a state of the pass started from `s`, after `n` of its events. -/
structure PassAt (s : State) (n : Nat) (u : State) : Prop where
  inv   : u.Inv
  cfg   : u.cfg = s.cfg
  fb    : u.fb = s.fb
  err   : u.err = s.err
  draws : u.draws = s.draws.drop n
  trace : u.trace = s.trace ++ (passEvents s.cfg s.fb).take n
  pos   : (u.seq.phase = .refresh ∧ passIndex s.cfg u.seq = n) ∨
    (u.seq = ⟨.yield, 0, 0, .words, 0⟩ ∧ n = passLength s.cfg)

section
variable {s t u : State} {n : Nat}

/-- The step that starts a pass, on the sequencer's turn in DRAIN (42_sequencer R122). -/
theorem step_startPass (hturn : chosenAction s = .sequencer) (hp : s.seq.phase = .drain)
    (hstart : s.q = [] ∨ s.cfg.drainCap = some s.seq.drained) : step s = .next (startPass (popSched s)) := by
  rw [step, hturn]
  exact sequencerStep_startPass hp (hstart.imp_right fun hn => capReached_eq_true.2 ⟨_, hn, le_rfl⟩)

theorem passAt_startPass (h : s.Inv) (hp : s.seq.phase = .drain) : PassAt s 0 (startPass (popSched s)) where
  inv := h.popSched.startPass hp
  cfg := rfl
  fb := rfl
  err := rfl
  draws := rfl
  trace := (List.append_nil _).symm
  pos := .inl ⟨rfl, by simp [passIndex]⟩

theorem PassAt.withSched (h : PassAt s n u) (sched : List Action) : PassAt s n { u with sched := sched } :=
  ⟨h.inv.withSched sched, h.cfg, h.fb, h.err, h.draws, h.trace, h.pos⟩

/-- The other agents' steps do not move the pass. -/
theorem PassAt.bystander {a : Action} (h : PassAt s n u) (hseq : a ≠ .sequencer) (hreset : isResetOrRestart a = false)
    (hstep : agentStep a u = .next t) : PassAt s n t ∧ t.sched = u.sched := by
  obtain ⟨hframe, -⟩ := agentStep_bystander hseq hreset hstep
  exact ⟨⟨h.inv.agentStep hstep, hframe.cfg.trans h.cfg, hframe.fb.trans h.fb, hframe.err.trans h.err,
    hframe.draws.trans h.draws, hframe.trace.trans h.trace, by rw [hframe.seq]; exact h.pos⟩, hframe.sched⟩

/-- At the end of the pass all its events stand in the trace, and the sequencer is in YIELD. -/
theorem PassAt.complete (h : PassAt s (passLength s.cfg) u) :
    u.trace = s.trace ++ passEvents s.cfg s.fb ∧ u.seq = ⟨.yield, 0, 0, .words, 0⟩ ∧ u.fb = s.fb ∧ u.err = s.err := by
  have hall : (passEvents s.cfg s.fb).take (passLength s.cfg) = passEvents s.cfg s.fb :=
    List.take_of_length_le (length_passEvents _ _).le
  refine ⟨hall ▸ h.trace, ?_, h.fb, h.err⟩
  obtain ⟨-, hindex⟩ | ⟨hseq, -⟩ := h.pos
  · have hlt := passIndex_lt h.inv.position
    rw [h.cfg, hindex] at hlt
    exact absurd hlt (lt_irrefl _)
  · exact hseq

section
variable (hlen : passLength s.cfg ≤ s.draws.length) (hok : ∀ d ∈ s.draws.take (passLength s.cfg), drawOk d)
include hlen hok

/-- Before the end of the pass the sequencer's turn emits the next event. -/
theorem PassAt.turn (h : PassAt s n u) (hn : n < passLength s.cfg) :
    ∃ t, sequencerStep u = .next t ∧ PassAt s (n + 1) t ∧ t.q = u.q ∧ t.sched = u.sched := by
  obtain ⟨hp, hindex⟩ := h.pos.resolve_right fun ⟨_, hend⟩ => absurd hend hn.ne
  have hlegal := h.inv.position
  have hdraws : u.draws = s.draws[n] :: s.draws.drop (n + 1) := h.draws.trans (List.drop_eq_getElem_cons (by omega))
  have hd : drawOk s.draws[n] := hok _ (List.mem_take_iff_getElem.2 ⟨n, by omega, rfl⟩)
  have hevent := getElem?_passEvents_passIndex hlegal
  rw [h.cfg, h.fb, hindex] at hevent
  obtain ⟨t, hstep, hseq, htrace, hdraws', herr, hfb, hq, hcfg, hsched⟩ := sequencerStep_refresh_ok hp hdraws hd
  refine ⟨t, hstep, ⟨h.inv.sequencerStep hstep, hcfg.trans h.cfg, hfb.trans h.fb, herr.trans h.err, hdraws', ?_, ?_⟩,
    hq, hsched⟩
  · rw [htrace, h.trace, List.take_add_one, hevent, List.append_assoc]
    rfl
  · have hnext := passIndex_nextPos hlegal hp
    rwa [h.cfg, hindex, ← hseq] at hnext

/-- With an empty schedule the pass runs through, and keeps Q. -/
theorem PassAt.run_unscheduled {r : Nat} (h : PassAt s n u) (hsched : u.sched = []) (hr : n + r = passLength s.cfg) :
    ∃ t, Sys2Proof.core.run r u = .next t ∧ PassAt s (passLength s.cfg) t ∧ t.q = u.q := by
  induction r generalizing n u with
  | zero => exact ⟨u, rfl, hr ▸ h, rfl⟩
  | succ r ih =>
    obtain ⟨v, hstep, hv, hq, hsched'⟩ := h.turn hlen hok (by omega)
    obtain ⟨t, hrun, ht, hq'⟩ := ih hv (hsched'.trans hsched) (by omega)
    exact ⟨t, (core_run_succ ((step_of_nil hsched).trans hstep)).trans hrun, ht, hq'.trans hq⟩

/-- With steps of producers and status reads between the sequencer's turns, a run that completes takes the pass through. -/
theorem PassAt.run_scheduled {acts rest : List Action} (h : PassAt s n u) (hsched : u.sched = acts ++ rest)
    (hacts : ∀ a ∈ acts, a = .sequencer ∨ isResetOrRestart a = false)
    (hcount : n + acts.countP (fun a => a = .sequencer) = passLength s.cfg)
    (hrun : Sys2Proof.core.run acts.length u = .next t) : PassAt s (passLength s.cfg) t ∧ t.sched = rest := by
  induction acts generalizing n u with
  | nil =>
    obtain rfl : u = t := Host.Outcome.next.inj hrun
    exact ⟨hcount ▸ h, hsched⟩
  | cons a acts ih =>
    obtain ⟨v, hstep, hrun'⟩ := core_run_succ_inv hrun
    rw [step_of_cons hsched] at hstep
    obtain ⟨ha, hrest⟩ := List.forall_mem_cons.1 hacts
    have h := h.withSched (acts ++ rest)
    by_cases hseq : a = .sequencer
    · subst hseq
      rw [List.countP_cons_of_pos (by simp)] at hcount
      obtain ⟨v', hstep', hv, -, hsched'⟩ := h.turn hlen hok (by omega)
      obtain rfl : v = v' := Host.Outcome.next.inj (hstep.symm.trans hstep')
      exact ih hv hsched' hrest (by omega) hrun'
    · rw [List.countP_cons_of_neg (by simpa using hseq)] at hcount
      obtain ⟨hv, hsched'⟩ := h.bystander hseq (ha.resolve_left hseq) hstep
      exact ih hv hsched' hrest hcount hrun'

end

end

/-- A producer's step is no RESET and no RESTART. -/
theorem isResetOrRestart_of_isProducer {a : Action} (h : isProducer a = true) : isResetOrRestart a = false := by
  cases a with
  | pushNb p m | pushBlk p m | pushDone p => rfl
  | sequencer | statusRead n | reset | restart | resetAndRestart | reconfigure c => cases h

/-- Settles O24: the first step starts the pass (`step_startPass`); the rest of the run is followed by `PassAt.run_unscheduled`, or
with a schedule by `PassAt.run_scheduled`. -/
theorem refreshPassEmitsEveryPlaneInOrder : Obligations.RefreshPassEmitsEveryPlaneInOrder := by
  unfold Obligations.RefreshPassEmitsEveryPlaneInOrder
  intro s hs hp hstart hlen hok
  have hpass := passAt_startPass hs hp
  refine ⟨fun hsched => ?_, fun acts rest t hsched hacts hcount hrun => ?_⟩
  · have hpop : (startPass (popSched s)).sched = [] := by simp [hsched]
    obtain ⟨t, hrun, ht, hq⟩ := hpass.run_unscheduled hlen hok hpop (Nat.zero_add _)
    obtain ⟨htrace, hseq, hfb, herr⟩ := ht.complete
    refine ⟨t, ?_, htrace, hseq, hfb, hq, herr⟩
    rw [passSteps, Nat.add_comm]
    exact (core_run_succ (step_startPass (chosenAction_of_nil hsched) hp hstart)).trans hrun
  · have hpop : (startPass (popSched s)).sched = acts ++ rest := by simp [hsched]
    rw [Nat.add_comm, core_run_succ (step_startPass (chosenAction_of_cons hsched) hp hstart)] at hrun
    have hothers : ∀ a ∈ acts, a = .sequencer ∨ isResetOrRestart a = false := fun a ha => by
      obtain hseq | hprod | ⟨n, rfl⟩ := hacts a ha
      · exact .inl hseq
      · exact .inr (isResetOrRestart_of_isProducer hprod)
      · exact .inr rfl
    obtain ⟨ht, hrest⟩ := hpass.run_scheduled hlen hok hpop hothers ((Nat.zero_add _).trans hcount) hrun
    obtain ⟨htrace, hseq, hfb, herr⟩ := ht.complete
    exact ⟨htrace, hseq, hfb, herr, hrest⟩

end Sys2Proof.Machine
end

section
/-! PROOFS about runs and the schedule (00_scope section 2): no agent's step reads the schedule, so the steps of an infinite run
are the steps of the machine that has them scheduled. -/

namespace Sys2Proof.Machine

section
variable {s t : State} (sched : List Action)

theorem takeDraw_withSched (s : State) :
    takeDraw { s with sched := sched } = ((takeDraw s).1, { (takeDraw s).2 with sched := sched }) := by
  unfold takeDraw
  cases s.draws <;> rfl

theorem resetLevels_withSched (s : State) :
    resetLevels { s with sched := sched } = { resetLevels s with sched := sched } := by
  unfold resetLevels
  rw [takeDraw_withSched]
  cases s.cfg.transport <;> rfl

theorem exec_withSched {i : Instr} (h : exec i s = .next t) :
    exec i { s with sched := sched } = .next { t with sched := sched } := by
  cases i <;> (cases h; rfl)

theorem countDrained_withSched (s : State) :
    countDrained { s with sched := sched } = { countDrained s with sched := sched } := by
  rw [countDrained_eq, countDrained_eq]

theorem transferStep_withSched (op : TransportOp) (pos : Seq) (s : State) :
    transferStep op pos { s with sched := sched } = { transferStep op pos s with sched := sched } := by
  have hdraw := takeDraw_withSched sched s
  cases hfail : failureOf s.cfg.transport op (takeDraw s).1 with
  | none =>
    have hfail' : failureOf s.cfg.transport op (takeDraw { s with sched := sched }).1 = none := by rwa [hdraw]
    rw [transferStep_of_ok hfail, transferStep_of_ok hfail', hdraw]
  | some e =>
    have hfail' : failureOf s.cfg.transport op (takeDraw { s with sched := sched }).1 = some e := by rwa [hdraw]
    rw [transferStep_of_failure hfail, transferStep_of_failure hfail', hdraw]

/-- A turn of the sequencer does not read the schedule. -/
theorem sequencerStep_withSched (h : sequencerStep s = .next t) :
    sequencerStep { s with sched := sched } = .next { t with sched := sched } := by
  obtain ⟨hp, hstart, rfl⟩ | ⟨m, rest, u, hp, hq, hcap, hexec, rfl⟩ | ⟨hp, rfl⟩ | ⟨hp, rfl⟩ := sequencerStep_cases h
  · exact sequencerStep_startPass (s := { s with sched := sched }) hp hstart
  · rw [← countDrained_withSched]
    exact sequencerStep_drain (s := { s with sched := sched }) hp hq hcap (exec_withSched sched hexec)
  · rw [← transferStep_withSched]
    exact sequencerStep_refresh (s := { s with sched := sched }) hp
  · exact sequencerStep_yield (s := { s with sched := sched }) hp

/-- No agent's step reads the schedule (log 3). -/
theorem agentStep_withSched {a : Action} (h : agentStep a s = .next t) :
    agentStep a { s with sched := sched } = .next { t with sched := sched } := by
  cases a with
  | sequencer => exact sequencerStep_withSched sched h
  | pushNb p m =>
    obtain ⟨hp, ⟨hq, rfl⟩ | ⟨hq, rfl⟩⟩ := pushNb_cases h
    · exact (pushNb_of_free (s := { s with sched := sched }) hp m).trans (congrArg _ (if_pos hq))
    · exact (pushNb_of_free (s := { s with sched := sched }) hp m).trans (congrArg _ (if_neg (Nat.not_lt.2 hq)))
  | pushBlk p m =>
    obtain ⟨hp, rfl⟩ := pushBlk_cases h
    exact pushBlk_of_free (s := { s with sched := sched }) hp m
  | pushDone p =>
    obtain ⟨m, hp, hq, rfl⟩ := pushDone_cases h
    exact (pushDone_of_held (s := { s with sched := sched }) hp).trans (if_pos hq)
  | statusRead n =>
    cases h
    rfl
  | reset | restart | resetAndRestart =>
    cases h
    simp [agentStep, resetAndRestart, resetBlock, restartBlock, resetLevels_withSched]
  | reconfigure c => cases h

/-- A step that is scheduled first is the machine's step, with the schedule after it left (log 3). -/
theorem step_scheduled {a : Action} (h : agentStep a s = .next t) :
    step { s with sched := a :: sched } = .next { t with sched := sched } :=
  (step_of_cons (s := { s with sched := a :: sched }) rfl).trans (agentStep_withSched (s := s) sched h)

end

/-- Settles O55, by induction on the number of steps: the first scheduled step is the run's first (`step_scheduled`), and the
rest is a run from the second state. -/
theorem runPrefixIsAScheduledRun : Obligations.RunPrefixIsAScheduledRun := by
  unfold Obligations.RunPrefixIsAScheduledRun
  intro st act hrun n rest
  induction n generalizing st act with
  | zero => rfl
  | succ n ih =>
    rw [scheduleOf_succ]
    exact (core_run_succ (step_scheduled _ (hrun 0))).trans
      (ih (fun k => st (k + 1)) (fun k => act (k + 1)) fun k => hrun (k + 1))

end Sys2Proof.Machine
end

section
/-! PROOFS about fair infinite runs (42_sequencer section 2, log 18). Each claim has a count of the sequencer's turns that may still
pass before what it claims, and the sequencer's next turn lowers the count (`exists_first_stop` finds that turn). -/

namespace Sys2Proof.Machine

/-- The first point from `n` on at which a run stops; up to it holds whatever each step before keeps. -/
theorem exists_first_stop {stop P : Nat → Prop} {n : Nat} (hstop : ∃ m, n ≤ m ∧ stop m) (hn : P n)
    (hkeep : ∀ j, n ≤ j → P j → ¬ stop j → P (j + 1)) : ∃ m, n ≤ m ∧ stop m ∧ ∀ j, n ≤ j → j ≤ m → P j := by
  classical
  obtain ⟨hm, hstopm⟩ := Nat.find_spec hstop
  refine ⟨Nat.find hstop, hm, hstopm, fun j hj => ?_⟩
  induction j, hj using Nat.le_induction with
  | base => exact fun _ => hn
  | succ j hj ih => exact fun hle => hkeep j hj (ih (by omega)) fun h => Nat.find_min hstop (by omega) ⟨hj, h⟩

section
variable {st : Nat → State} {act : Nat → Action} (hrun : IsRun st act) {n : Nat}
include hrun

/-- The invariant holds at every later point of a run. -/
theorem IsRun.inv {m : Nat} (hn : (st n).Inv) (hm : n ≤ m) : (st m).Inv := by
  induction m, hm using Nat.le_induction with
  | base => exact hn
  | succ m _ ih => exact ih.agentStep (hrun m)

theorem IsRun.sequencerStep {m : Nat} (h : act m = .sequencer) : sequencerStep (st m) = .next (st (m + 1)) := by
  have hstep := hrun m
  rwa [h] at hstep

end

/-! ### A pass ends -/

section
variable {s t : State}

/-- Where the turn in REFRESH leads: to the next position of the pass, to YIELD after the last one, or to HALTED. -/
theorem sequencerStep_in_refresh (h : s.Inv) (hp : s.seq.phase = .refresh) (hstep : sequencerStep s = .next t) :
    (t.seq.phase = .refresh ∧ passIndex t.cfg t.seq = passIndex s.cfg s.seq + 1) ∨
    t.seq = ⟨.yield, 0, 0, .words, 0⟩ ∨ t.seq.phase = .halted := by
  obtain rfl := Host.Outcome.next.inj ((sequencerStep_refresh hp).symm.trans hstep)
  cases hfail : failureOf s.cfg.transport (dueOp s) (takeDraw s).1 with
  | none =>
    rw [transferStep_of_ok hfail]
    exact (passIndex_nextPos h.position hp).imp_right fun hend => .inl hend.1
  | some e =>
    rw [transferStep_of_failure hfail]
    exact .inr (.inr rfl)

end

/-- In a fair run the sequencer's next turn, RESET, RESTART or a halt comes, and up to it the position is kept. -/
theorem exists_turn_keeping_position {st : Nat → State} {act : Nat → Action} (hrun : IsRun st act)
    (hfair : WeaklyFair st act) (n : Nat) :
    ∃ m, n ≤ m ∧ (act m = .sequencer ∨ isResetOrRestart (act m) = true ∨ (st m).seq.phase = .halted) ∧
      ∀ j, n ≤ j → j ≤ m → (st j).seq = (st n).seq ∧ (st j).cfg = (st n).cfg := by
  refine exists_first_stop ((hfair n).imp fun m h => h.imp_right (Or.imp_right Or.inr)) ⟨rfl, rfl⟩ fun j _ hj hgo => ?_
  obtain ⟨hseq, hgo⟩ := not_or.1 hgo
  have hframe := (agentStep_bystander hseq (Bool.eq_false_iff.2 (not_or.1 hgo).1) (hrun j)).1
  exact ⟨hframe.seq.trans hj.1, hframe.cfg.trans hj.2⟩

/-- Settles O56, by induction on the number of transfers the pass still has: up to the sequencer's next turn, RESET or RESTART the
position is kept (`exists_turn_keeping_position`), and the turn emits one event more or ends the pass. -/
theorem everyPassOfAFairRunEnds : Obligations.EveryPassOfAFairRunEnds := by
  unfold Obligations.EveryPassOfAFairRunEnds
  intro st act n hrun hfair hinv hp
  obtain ⟨r, hr⟩ : ∃ r, passLength (st n).cfg ≤ passIndex (st n).cfg (st n).seq + r := ⟨_, Nat.le_add_left _ _⟩
  induction r generalizing n with
  | zero => exact absurd (passIndex_lt hinv.position) (Nat.not_lt.2 hr)
  | succ r ih =>
    obtain ⟨m, hm, hstop, hkept⟩ := exists_turn_keeping_position hrun hfair n
    have hrefresh (j : Nat) (hj : n ≤ j) (hjm : j ≤ m) : (st j).seq.phase = .refresh := by
      rw [(hkept j hj hjm).1, hp]
    obtain hturn | hreset | hhalted := hstop
    · obtain ⟨hseqm, hcfgm⟩ := hkept m hm le_rfl
      obtain ⟨hp', hindex⟩ | hyield | hhalted :=
        sequencerStep_in_refresh (hrun.inv hinv hm) (hrefresh m hm le_rfl) (hrun.sequencerStep hturn)
      · have hcfg : (st (m + 1)).cfg = (st n).cfg := (agentStep_cfg (hrun m)).trans hcfgm
        rw [hseqm, hcfgm] at hindex
        obtain ⟨m', hm', hbetween, hend⟩ := ih (m + 1) (hrun.inv hinv (by omega)) hp' (by rw [hindex, hcfg]; omega)
        refine ⟨m', by omega, fun j hj hjm => ?_, hend⟩
        obtain hlt | hle := Nat.lt_or_ge m j
        · exact hbetween j hlt hjm
        · exact hrefresh j hj hle
      · exact ⟨m, hm, hrefresh, .inr ⟨hturn, .inl (by rw [hyield])⟩⟩
      · exact ⟨m, hm, hrefresh, .inr ⟨hturn, .inr hhalted⟩⟩
    · exact ⟨m, hm, hrefresh, .inl hreset⟩
    · cases (hrefresh m hm le_rfl).symm.trans hhalted

/-! ### A queued message is applied -/

/-- The number of the sequencer's turns, at most, before the one that takes the head of Q. -/
def turnsToTake (s : State) : Nat :=
  match s.seq.phase with
  | .drain => if capReached s then passLength s.cfg + 2 else 0
  | .refresh => passLength s.cfg - passIndex s.cfg s.seq + 1
  | .yield => 1
  | .halted => 0

section
variable {s t : State}

theorem turnsToTake_congr (hseq : t.seq = s.seq) (hcfg : t.cfg = s.cfg) : turnsToTake t = turnsToTake s := by
  rw [turnsToTake, turnsToTake, capReached, capReached, hseq, hcfg]

/-- At the start of DRAIN the cap is not reached. -/
theorem turnsToTake_of_start (hc : s.cfg.WellFormed) (hseq : s.seq = ⟨.drain, 0, 0, .words, 0⟩) : turnsToTake s = 0 := by
  have hcap : capReached s = false := capReached_eq_false.2 fun n hn => by rw [hseq]; exact drainCap_pos hc hn
  simp [turnsToTake, hseq, hcap]

/-- A step between the sequencer's turns takes nothing from Q and costs no turn more, unless it is RESET. RESTART begins anew in
DRAIN, below the cap. -/
theorem turnsToTake_between {a : Action} (h : s.Inv) (hseq : a ≠ .sequencer)
    (hreset : ¬ (a = .reset ∨ a = .resetAndRestart)) (hstep : agentStep a s = .next t) :
    turnsToTake t ≤ turnsToTake s ∧ ∃ pushed, t.q = s.q ++ pushed := by
  cases hrestart : isResetOrRestart a with
  | false =>
    obtain ⟨hframe, hq⟩ := agentStep_bystander hseq hrestart hstep
    exact ⟨(turnsToTake_congr hframe.seq hframe.cfg).le, hq⟩
  | true =>
    obtain ⟨ha, -⟩ | ⟨-, rfl⟩ := agentStep_resetOrRestart hrestart hstep
    · exact absurd ha hreset
    · rw [turnsToTake_of_start h.restartBlock.cfgOk (restartBlock_seq s)]
      exact ⟨Nat.zero_le _, [], by rw [restartBlock_q, List.append_nil]⟩

/-- With a message in Q, a turn of the sequencer takes it, or halts, or brings the turn that does nearer. -/
theorem sequencerStep_nears_take (h : s.Inv) (hq : s.q ≠ []) (hstep : sequencerStep s = .next t) :
    (s.seq.phase = .drain ∧ capReached s = false) ∨ t.seq.phase = .halted ∨
      (turnsToTake t < turnsToTake s ∧ t.q = s.q) := by
  obtain ⟨hp, hstart, rfl⟩ | ⟨m, rest, u, hp, -, hcap, -⟩ | ⟨hp, ht⟩ | ⟨hp, rfl⟩ := sequencerStep_cases hstep
  · refine .inr (.inr ⟨?_, rfl⟩)
    simp only [turnsToTake, startPass_seq, startPass_cfg, hp, hstart.resolve_left hq, if_true]
    omega
  · exact .inl ⟨hp, hcap⟩
  · refine .inr (or_iff_not_imp_left.2 fun hhalted => ⟨?_, by rw [ht, transferStep_q]⟩)
    have hlt := passIndex_lt h.position
    have hcfg : t.cfg = s.cfg := agentStep_cfg (a := .sequencer) hstep
    obtain ⟨hp', hindex⟩ | hyield | hhalted' := sequencerStep_in_refresh h hp hstep
    · rw [hcfg] at hindex
      simp only [turnsToTake, hp, hp', hindex, hcfg]
      omega
    · simp only [turnsToTake, hp, hyield]
      omega
    · exact absurd hhalted' hhalted
  · refine .inr (.inr ⟨?_, rfl⟩)
    rw [turnsToTake_of_start (s := yieldStep s) h.cfgOk rfl]
    simp [turnsToTake, hp]

end

section
variable {st : Nat → State} {act : Nat → Action}

/-- In a fair run the sequencer's next turn, RESET or a halt comes, and up to it nothing is taken from Q. -/
theorem exists_turn_keeping_queue (hrun : IsRun st act) (hfair : WeaklyFair st act) {n : Nat} (hinv : (st n).Inv) :
    ∃ m, n ≤ m ∧
      (act m = .sequencer ∨ (st m).seq.phase = .halted ∨ act m = .reset ∨ act m = .resetAndRestart) ∧
      ∀ j, n ≤ j → j ≤ m → turnsToTake (st j) ≤ turnsToTake (st n) ∧ ∃ pushed, (st j).q = (st n).q ++ pushed := by
  refine exists_first_stop ((hfair n).imp fun m h => h.imp_right (Or.imp_right Or.inl))
    ⟨le_rfl, [], (List.append_nil _).symm⟩ fun j hj ⟨hturns, pushed, hq⟩ hgo => ?_
  obtain ⟨hseq, hgo⟩ := not_or.1 hgo
  obtain ⟨hturns', pushed', hq'⟩ := turnsToTake_between (hrun.inv hinv hj) hseq (not_or.1 hgo).2 (hrun j)
  exact ⟨hturns'.trans hturns, pushed ++ pushed', by rw [hq', hq, List.append_assoc]⟩

/-- In a fair run with a message in Q, a turn of the sequencer comes that takes the head of Q, unless a halt or RESET comes. -/
theorem exists_turn_taking_head (hrun : IsRun st act) (hfair : WeaklyFair st act) {n : Nat} (hinv : (st n).Inv)
    (hq : (st n).q ≠ []) :
    ∃ k, n ≤ k ∧ (((st k).seq.phase = .halted ∨ act k = .reset ∨ act k = .resetAndRestart) ∨
      (act k = .sequencer ∧ (st k).seq.phase = .drain ∧ capReached (st k) = false ∧
        ∃ pushed, (st k).q = (st n).q ++ pushed)) := by
  obtain ⟨r, hr⟩ : ∃ r, turnsToTake (st n) < r := ⟨_, Nat.lt_succ_self _⟩
  induction r generalizing n with
  | zero => exact absurd hr (Nat.not_lt_zero _)
  | succ r ih =>
    obtain ⟨m, hm, hstop, hkept⟩ := exists_turn_keeping_queue hrun hfair hinv
    obtain ⟨hturns, pushed, hqm⟩ := hkept m hm le_rfl
    obtain hturn | hend := hstop
    · have hne : (st m).q ≠ [] := by simp [hqm, hq]
      obtain ⟨hp, hcap⟩ | hhalted | ⟨hlt, hqm'⟩ :=
        sequencerStep_nears_take (hrun.inv hinv hm) hne (hrun.sequencerStep hturn)
      · exact ⟨m, hm, .inr ⟨hturn, hp, hcap, pushed, hqm⟩⟩
      · exact ⟨m + 1, by omega, .inl (.inl hhalted)⟩
      · obtain ⟨k, hk, hend⟩ := ih (n := m + 1) (hrun.inv hinv (by omega)) (hqm' ▸ hne) (by omega)
        refine ⟨k, by omega, hend.imp_right ?_⟩
        rintro ⟨hturn', hp, hcap, pushed', hqk⟩
        exact ⟨hturn', hp, hcap, pushed ++ pushed', by rw [hqk, hqm', hqm, List.append_assoc]⟩
    · exact ⟨m, hm, .inl hend⟩

end

/-- Settles O57, by induction on the messages before it in Q: the next turn that takes the head (`exists_turn_taking_head`) takes
it, or one of those before it. -/
theorem everyQueuedMessageIsAppliedInAFairRun : Obligations.EveryQueuedMessageIsAppliedInAFairRun := by
  unfold Obligations.EveryQueuedMessageIsAppliedInAFairRun
  intro st act n before after m hrun hfair hinv hq
  induction before generalizing n after with
  | nil =>
    obtain ⟨k, hk, hend⟩ := exists_turn_taking_head hrun hfair hinv (by simp [hq])
    refine ⟨k, hk, ?_⟩
    rw [or_assoc, or_assoc] at hend
    refine hend.imp_right (Or.imp_right (Or.imp_right ?_))
    rintro ⟨hturn, hp, hcap, pushed, hqk⟩
    rw [hq] at hqk
    obtain ⟨t, hexec, hstep, -⟩ := drainAppliesTheHeadOfTheQueue (st k) m _ hp hqk (capReached_eq_false.1 hcap)
    exact ⟨hturn, pushed, t, hqk, hexec, Host.Outcome.next.inj ((hrun.sequencerStep hturn).symm.trans hstep)⟩
  | cons b before ih =>
    obtain ⟨k, hk, hstopped | ⟨hturn, hp, hcap, pushed, hqk⟩⟩ := exists_turn_taking_head hrun hfair hinv (by simp [hq])
    · exact ⟨k, hk, hstopped.imp_right (Or.imp_right Or.inl)⟩
    rw [hq, List.cons_append] at hqk
    obtain ⟨t, -, hstep, hqt, -⟩ := drainAppliesTheHeadOfTheQueue (st k) b _ hp hqk (capReached_eq_false.1 hcap)
    have hnext := Host.Outcome.next.inj ((hrun.sequencerStep hturn).symm.trans hstep)
    have hq' : (st (k + 1)).q = before ++ m :: (after ++ pushed) := by
      rw [hnext]
      exact hqt.trans (List.append_assoc _ _ _)
    obtain ⟨k', hk', hend⟩ := ih (k + 1) (after ++ pushed) (hrun.inv hinv (by omega)) hq'
    refine ⟨k', by omega, hend.imp_right (Or.imp_right (Or.imp_right ?_))⟩
    rintro ⟨hturn', pushed', t', hqk', hexec, hst⟩
    rw [List.append_assoc] at hqk' hexec
    exact ⟨hturn', pushed ++ pushed', t', hqk', hexec, hst⟩

/-! ### A pass starts once the producers cease -/

/-- The number of the sequencer's turns, at most, before the one that starts a pass, when no producer takes a step. -/
def turnsToPass (s : State) : Nat := s.q.length + if s.seq.phase = .yield then 1 else 0

/-- Outside a pass a turn of the sequencer starts one, or brings the turn that does nearer. -/
theorem sequencerStep_nears_pass {s t : State} (hp : s.seq.phase ≠ .refresh) (hstep : sequencerStep s = .next t) :
    t.seq.phase = .refresh ∨ turnsToPass t < turnsToPass s := by
  obtain ⟨-, -, rfl⟩ | ⟨m, rest, u, hp', hq, -, hexec, rfl⟩ | ⟨hp', -⟩ | ⟨hp', rfl⟩ := sequencerStep_cases hstep
  · exact .inl rfl
  · have hrest : (countDrained u).q = rest ∧ (countDrained u).seq.phase = .drain := by
      rw [countDrained_eq]
      obtain ⟨fb, rfl⟩ | rfl := exec_next_cases hexec <;> exact ⟨rfl, hp'⟩
    right
    rw [turnsToPass, turnsToPass, hrest.1, hrest.2, hq, hp', List.length_cons]
    omega
  · exact absurd hp' hp
  · refine .inr ?_
    simp [turnsToPass, hp']

/-- A step that is no agent's but the supervisor's status read keeps the position and Q. -/
theorem agentStep_idle {a : Action} {s t : State} (hseq : a ≠ .sequencer) (hreset : isResetOrRestart a = false)
    (hprod : isProducer a = false) (h : agentStep a s = .next t) : t.seq = s.seq ∧ t.q = s.q := by
  cases a with
  | statusRead k =>
    cases h
    exact ⟨rfl, rfl⟩
  | sequencer => exact absurd rfl hseq
  | pushNb p m | pushBlk p m | pushDone p => cases hprod
  | reset | restart | resetAndRestart => cases hreset
  | reconfigure c => cases h

/-- Without producers the sequencer's next turn, RESET, RESTART or a halt comes, and up to it the position and Q are kept. -/
theorem exists_turn_keeping_all {st : Nat → State} {act : Nat → Action} {n : Nat} (hrun : IsRun st act)
    (hfair : WeaklyFair st act) (hcease : ∀ k, n ≤ k → isProducer (act k) = false) :
    ∃ m, n ≤ m ∧ (act m = .sequencer ∨ (st m).seq.phase = .halted ∨ isResetOrRestart (act m) = true) ∧
      ∀ j, n ≤ j → j ≤ m → (st j).seq = (st n).seq ∧ (st j).q = (st n).q := by
  refine exists_first_stop ((hfair n).imp fun m h => h.imp_right (Or.imp_right Or.inl)) ⟨rfl, rfl⟩
    fun j hj ⟨hseqj, hqj⟩ hgo => ?_
  obtain ⟨hseq, hgo⟩ := not_or.1 hgo
  obtain ⟨hseq', hq'⟩ := agentStep_idle hseq (Bool.eq_false_iff.2 (not_or.1 hgo).2) (hcease j hj) (hrun j)
  exact ⟨hseq'.trans hseqj, hq'.trans hqj⟩

/-- Settles O58, by induction on `turnsToPass`: without producers the next turn of the sequencer starts a pass or lowers it. -/
theorem aPassStartsOnceProducersCease : Obligations.APassStartsOnceProducersCease := by
  unfold Obligations.APassStartsOnceProducersCease
  intro st act n hrun hfair hinv hcease
  obtain ⟨r, hr⟩ : ∃ r, turnsToPass (st n) < r := ⟨_, Nat.lt_succ_self _⟩
  induction r generalizing n with
  | zero => exact absurd hr (Nat.not_lt_zero _)
  | succ r ih =>
    obtain ⟨m, hm, hstop, hkept⟩ := exists_turn_keeping_all hrun hfair hcease
    obtain hturn | hend := hstop
    · by_cases hp : (st m).seq.phase = .refresh
      · exact ⟨m, hm, .inl hp⟩
      obtain hstart | hlt := sequencerStep_nears_pass hp (hrun.sequencerStep hturn)
      · exact ⟨m + 1, by omega, .inl hstart⟩
      · obtain ⟨hseqm, hqm⟩ := hkept m hm le_rfl
        have heq : turnsToPass (st m) = turnsToPass (st n) := by rw [turnsToPass, turnsToPass, hseqm, hqm]
        obtain ⟨k, hk, hend⟩ := ih (m + 1) (hrun.inv hinv (by omega)) (fun k hk => hcease k (by omega)) (by omega)
        exact ⟨k, by omega, hend⟩
    · exact ⟨m, hm, .inr hend⟩

/-! ### Fairness gives no refresh rate (V-SEQ11) -/

/-- The states of the run in which a producer pushes Clear before each turn of the sequencer. -/
def starvedState (n : Nat) : State := if n % 2 = 0 then State.reset else { State.reset with q := [encode .clear] }

def starvedAct (n : Nat) : Action := if n % 2 = 0 then .pushNb 1 (encode .clear) else .sequencer

theorem starved_isRun : IsRun starvedState starvedAct := by
  intro n
  obtain h | h := Nat.mod_two_eq_zero_or_one n
  · have h' : (n + 1) % 2 = 1 := by omega
    simp only [starvedState, starvedAct, h, h', if_true, if_neg Nat.one_ne_zero]
    rfl
  · have h' : (n + 1) % 2 = 0 := by omega
    simp only [starvedState, starvedAct, h, h', if_true, if_neg Nat.one_ne_zero]
    rfl

theorem starved_fair : WeaklyFair starvedState starvedAct := fun n =>
  ⟨2 * n + 1, by omega, .inl (if_neg (by omega))⟩

/-- Settles O59 with the run `starvedState`: each push is applied by the turn after it, and Q is never empty on a turn. -/
theorem aFairRunCanStarveRefresh : Obligations.AFairRunCanStarveRefresh := by
  unfold Obligations.AFairRunCanStarveRefresh
  refine ⟨starvedState, starvedAct, starved_isRun, starved_fair, rfl, fun n => ?_⟩
  unfold starvedState
  split_ifs <;> exact ⟨rfl, rfl⟩

end Sys2Proof.Machine
end
